-- ==== Sys2Proof/Word.lean ====
section
/-! DEFINITION. The two word sizes of the block: 32-bit registers and command words (R9, R33), 8-bit samples (R9, R77). -/

namespace Sys2Proof

/-- A host register or command word (R33, R111). -/
abbrev Word := BitVec 32

/-- One sample of the sample memory: "8-bit unsigned" (R77). -/
abbrev Byte := BitVec 8

end Sys2Proof
end

