-- ==== Sys2Proof/Config.lean ====
section
/-! DEFINITION. The parameters of the model (R8) as plain data, and the free values: constants without a body that
stand for what the spec leaves open. -/

namespace Sys2Proof

/-- One row of an index map given as a table: the source indices of the destination coordinates `0, 1, …` for one pair
of extents, as TV-NN writes them. -/
structure NnRow where
  dn : Nat
  sn : Nat
  indices : List Nat
  deriving DecidableEq, Repr

/-- NN_MAP of R8: the default map of R150, or any map of the user's choice that meets R151, given as its table. Extents
are 16-bit numbers (R113), so every such map is a table (`NnMap.ofFunction` makes it from a function); a pair of extents
with no row takes the default (log 4). -/
inductive NnMap where
  | floorMap
  | given (rows : List NnRow)
  deriving DecidableEq, Repr

/-- COMBINE of R8: the default of R196 (channel 0), or any function of the user's choice that meets R197, given as the
lists of bits, one bit a channel, that it combines to 1. There are at most 7 channels (R8), so every such function is
such a list (`Combine.ofFunction` makes it from a function; log 4). -/
inductive Combine where
  | channel0
  | given (ones : List (List Byte))
  deriving DecidableEq, Repr

/-- The parameters of R8. `memSize` is MEM_SIZE, `cmax` is CMAX. `powerUp` is the model's own: it says which power-up's
unspecified memory contents the machine shows (R301, log 3). No step changes any of them (log 1). -/
structure Config where
  memSize : Nat
  cmax : Nat
  nnMap : NnMap
  combine : Combine
  powerUp : Nat
  deriving DecidableEq, Repr

/-- The legal ranges of R8. -/
abbrev Config.Legal (p : Config) : Prop :=
  (32 ≤ p.memSize ∧ p.memSize ≤ 2 ^ 32 - 32) ∧ (1 ≤ p.cmax ∧ p.cmax ≤ 7)

/-- The defaults of R8. MEM_SIZE has no default in the spec: the largest legal size stands here
(DESIGN CHOICE, log 2). -/
def Config.default : Config :=
  { memSize := 2 ^ 32 - 32, cmax := 4, nnMap := .floorMap, combine := .channel0, powerUp := 0 }

/-- FREE VALUE (R301, log 3): the byte at an address that nothing has written since power-up `powerUp`. -/
opaque Config.powerUpByte : (powerUp address : Nat) → Byte

/-- FREE VALUE (R88, log 7): which of the allowed values the n-th racing host read returns. -/
opaque Config.raceChoice : (draw : Nat) → Nat

/-- FREE VALUE (R300, log 8): whether the write to `address` of the command in progress had happened when the reset
of draw n came. -/
opaque Config.tornWrite : (draw address : Nat) → Bool

end Sys2Proof
end

