-- ==== Sys2Proof/Syntax.lean ====
section
/-! DEFINITION. Commands as syntax: the method (R116), the descriptor (R13, R114), the eight words of a command (R111)
and the instruction type, one constructor per row of spec/opcode_table.json (R115). -/

namespace Sys2Proof

/-- "a closed enumeration of three variants" (R2, R116). -/
inductive Method where
  | direct
  | bitwiseAdd
  | negatedBitwiseAdd
  deriving DecidableEq, Repr

/-- A descriptor `(base, H, W, C)` (R13): an image of `h` rows, `w` columns and `c` channels at byte address `base`.
All four are unsigned naturals (R10, R113). -/
structure Desc where
  base : Nat
  h : Nat
  w : Nat
  c : Nat
  deriving DecidableEq, Repr

/-- The eight words W0 to W7 of one command (R110, R111): what the sequencer latches (R49). -/
structure Command where
  w0 : Word
  w1 : Word
  w2 : Word
  w3 : Word
  w4 : Word
  w5 : Word
  w6 : Word
  w7 : Word
  deriving DecidableEq, Repr

/-- The seven commands of R115, each with exactly the fields its row marks "used". Ignored fields have no effect (R119)
and are not kept (log 16). The destination is the last descriptor of each constructor. -/
inductive Instr where
  | endRun
  | encode (m : Method) (a b d : Desc)
  | decode (m : Method) (a b d : Desc)
  | resize (a d : Desc)
  | binarize (t : Nat) (a d : Desc)
  | embed (m : Method) (a b d : Desc)
  | extract (m : Method) (a b d : Desc)
  deriving DecidableEq, Repr

end Sys2Proof
end

