-- ==== Sys2Proof/Machine/State.lean ====
section
/-! DEFINITION. The state of the block (R32, R49, R50) as plain data, the reasons a step can stop, and the state after
reset. Block faults (R261) are not stops: they are next states with STATE = FAULT. -/

namespace Sys2Proof.Machine

/-- STATUS.STATE (R39). -/
inductive RunState where
  | idle
  | busy
  | done
  | fault
  deriving DecidableEq, Repr

/-- STATUS.FCODE (R261). `aliasing` is the code the spec names ALIAS. -/
inductive FCode where
  | none
  | illegalOpcode
  | reserved
  | badMethod
  | badChannels
  | badDim
  | shape
  | bounds
  | aliasing
  | fetch
  | align
  deriving DecidableEq, Repr

/-- One move of the host (R320). `pause` is the model's own: the host does nothing and the sequencer takes its step
(log 6). A register access carries its offset and its width in bytes, so that the accesses R45 leaves undefined can be
written down (and are refused). -/
inductive HostMove where
  | pause
  | readReg (offset width : Nat)
  | writeReg (offset width : Nat) (value : Word)
  | readMem (address : Nat)
  | writeMem (address : Nat) (value : Byte)
  | reset
  deriving DecidableEq, Repr

/-- Why the machine stops with a fault. -/
inductive Fault where
  /-- Raised by a host read or write of a byte outside the sample memory, which has no such address (R70, log 10).
  Safe: the model stops where the spec says nothing. -/
  | noSuchByte (address : Nat)
  deriving DecidableEq, Repr

/-- Why the model has no next state. -/
inductive Refusal where
  /-- Raised by no arm any more: every instruction has its meaning. Safe. -/
  | notModelled (mnemonic : String)
  /-- Raised by a host register access that is not one aligned 32-bit word inside the window: "A model refuses it"
  (R45, S5). Safe. -/
  | registerAccess (offset width : Nat)
  /-- Raised by a host write to the sample memory while STATE = BUSY: "A model gives the host no memory-write move while
  STATE = BUSY" (R321, S4). Safe. -/
  | writeWhileBusy (address : Nat)
  deriving DecidableEq, Repr

/-- The sample memory (R70): the bytes written so far, at strictly rising addresses. An address with no entry holds no
written value; what it reads as is `State.byte`'s one rule (R301, log 3). -/
abbrev Memory := List Host.Cell

/-- The canonical form: addresses strictly rising. No entry equals what an unlisted address holds, which is no value. -/
abbrev Memory.wf (m : Memory) : Prop := m.Pairwise fun p q => p.1 < q.1

/-- The state of the block. -/
structure State where
  /-- Parameters of the model (R8); no step changes them (log 1). -/
  cfg : Config
  /-- CTRL.IE (R35). -/
  ie : Bool
  /-- STATUS.STATE (R39). -/
  run : RunState
  /-- STATUS.FCODE (R40). -/
  fcode : FCode
  /-- CMDPTR (R41). -/
  cmdptr : Word
  /-- CUR, the program counter (R42). -/
  cur : Word
  /-- COUNT (R43). -/
  count : Word
  /-- The sample memory (R48, R70). -/
  mem : Memory
  /-- The command latch (R49a): the eight words of the command in progress. -/
  latch : Option Command
  /-- The progress of the command in progress (R49b): the addresses of the destination samples already written. -/
  progress : List Nat
  /-- The model's own: the memory as the last START found it (R88's "old" values, log 7). -/
  startMem : Memory
  /-- The model's own: the host moves still to come, oldest first (log 6). -/
  inbox : List HostMove
  /-- The model's own: what the host got back from its last read (R320, log 14). -/
  busData : Option Word
  /-- The model's own: how many free choices have been drawn (R88, R300, logs 7 and 8). -/
  draws : Nat
  deriving DecidableEq, Repr

/-- Reset puts every piece of state into the value of R50, for given parameters; memory has nothing listed (R301). -/
def State.resetOf (p : Config) : State :=
  { cfg := p, ie := false, run := .idle, fcode := .none, cmdptr := 0#32, cur := 0#32, count := 0#32,
    mem := [], latch := none, progress := [], startMem := [], inbox := [], busData := none, draws := 0 }

/-- The machine right after power-up and reset (R50, R302), with the default parameters (R8, log 2). -/
def State.reset : State := State.resetOf Config.default

end Sys2Proof.Machine
end

