-- ==== Sys2Proof/Machine/Flags.lean ====
section
/-! DEFINITION. The only flags of the block (R46): STATUS.STATE and STATUS.FCODE, their codes, the STATUS word (R38),
the CTRL word (R35) and the interrupt line (R47). The block has no condition codes and no arithmetic flags. -/

namespace Sys2Proof.Machine

/-- The two-bit code of STATE (R39). -/
def RunState.code : RunState → Nat
  | .idle => 0
  | .busy => 1
  | .done => 2
  | .fault => 3

/-- The four-bit code of FCODE (R261). -/
def FCode.code : FCode → Nat
  | .none => 0
  | .illegalOpcode => 1
  | .reserved => 2
  | .badMethod => 3
  | .badChannels => 4
  | .badDim => 5
  | .shape => 6
  | .bounds => 7
  | .aliasing => 8
  | .fetch => 9
  | .align => 10

/-- The STATUS word: STATE in bits 1:0, FCODE in bits 11:8, every other bit 0 (R38). -/
def State.statusWord (s : State) : Word := BitVec.ofNat 32 (s.run.code + 2 ^ 8 * s.fcode.code)

/-- What a read of CTRL returns: IE in bit 2, every other bit 0 (R35). -/
def State.ctrlWord (s : State) : Word := if s.ie then 0x4#32 else 0x0#32

/-- The interrupt line: `CTRL.IE and (STATE = DONE or STATE = FAULT)`, at every moment (R47). -/
def State.irq (s : State) : Bool := s.ie && (s.run == .done || s.run == .fault)

end Sys2Proof.Machine
end

