-- ==== Sys2Proof/WellFormed.lean ====
section
/-! DEFINITION. Well-formed instructions: every operand fits the field that encodes it (R112, R113). -/

namespace Sys2Proof

/-- A descriptor fits its fields: base 32 bits (R111), H and W 16 bits each (R113), C 3 bits (R112). -/
def Desc.wellFormed (x : Desc) : Bool :=
  decide (x.base < 2 ^ 32) && decide (x.h < 2 ^ 16) && decide (x.w < 2 ^ 16) && decide (x.c < 2 ^ 3)

/-- The threshold fits THR, 8 bits (R112, R117). -/
def thresholdWellFormed (t : Nat) : Bool := decide (t < 2 ^ 8)

/-- Every operand of the instruction fits the field that encodes it. -/
def Instr.wellFormed : Instr → Bool
  | .endRun => true
  | .encode _ a b d => a.wellFormed && b.wellFormed && d.wellFormed
  | .decode _ a b d => a.wellFormed && b.wellFormed && d.wellFormed
  | .resize a d => a.wellFormed && d.wellFormed
  | .binarize t a d => thresholdWellFormed t && a.wellFormed && d.wellFormed
  | .embed _ a b d => a.wellFormed && b.wellFormed && d.wellFormed
  | .extract _ a b d => a.wellFormed && b.wellFormed && d.wellFormed

end Sys2Proof
end

