-- ==== Sys2Proof/Decode.lean ====
section
/-! DEFINITION. Bytes to command words (R72, R73, R110), command words to an instruction or a rejection by name
(R112 to R121), and the encoder written from the same tables (R112, R114, R123). -/

namespace Sys2Proof

/-- `v[hi:lo]` of R10: bits `hi` down to `lo`, inclusive, as a natural. -/
def bitField (v : Word) (hi lo : Nat) : Nat := v.toNat / 2 ^ lo % 2 ^ (hi + 1 - lo)

/-- The little-endian value of a list of bytes, first byte lowest (R72). -/
def leNat : List Byte → Nat
  | [] => 0
  | b :: bs => b.toNat + 256 * leNat bs

/-- The `n` bytes of a natural, lowest first: `(v div 256^i) mod 256` for each `i` in `[0, n)` (R72). -/
def leBytes : (n v : Nat) → List Byte
  | 0, _ => []
  | n + 1, v => BitVec.ofNat 8 v :: leBytes n (v / 256)

/-- Word `i` of a command from its bytes: four bytes, little-endian (R73). -/
def wordOfBytes (bs : List Byte) (i : Nat) : Word := BitVec.ofNat 32 (leNat ((bs.drop (4 * i)).take 4))

/-- The eight words of the command whose 32 bytes begin the list (R110, R111). -/
def commandOfBytes (bs : List Byte) : Command :=
  { w0 := wordOfBytes bs 0, w1 := wordOfBytes bs 1, w2 := wordOfBytes bs 2, w3 := wordOfBytes bs 3,
    w4 := wordOfBytes bs 4, w5 := wordOfBytes bs 5, w6 := wordOfBytes bs 6, w7 := wordOfBytes bs 7 }

/-- The 32 bytes of a command, as they lie in the sample memory (R73, R110). -/
def Command.bytes (c : Command) : List Byte :=
  [c.w0, c.w1, c.w2, c.w3, c.w4, c.w5, c.w6, c.w7].flatMap fun w => leBytes 4 w.toNat

/-- Why a command does not decode: the three decode faults of R121, in their order. `tooShort` is the byte decoder's
own: fewer than 32 bytes (R110); the sequencer never meets it, because its fetch faults FETCH first (R82). -/
inductive Reject where
  | illegalOpcode
  | reserved
  | badMethod
  | tooShort
  deriving DecidableEq, Repr

/-- The one outcome of decoding (R121). -/
inductive Decoded where
  | instr (i : Instr)
  | reject (r : Reject)
  deriving DecidableEq, Repr

/-- `HDR.METH` (R116); 3 is not a method. -/
def methodOfCode : Nat → Option Method
  | 0 => some .direct
  | 1 => some .bitwiseAdd
  | 2 => some .negatedBitwiseAdd
  | _ => none

/-- Descriptor A of R114. -/
def Command.descA (c : Command) : Desc :=
  { base := c.w1.toNat, h := bitField c.w2 31 16, w := bitField c.w2 15 0, c := bitField c.w0 18 16 }

/-- Descriptor B of R114. -/
def Command.descB (c : Command) : Desc :=
  { base := c.w3.toNat, h := bitField c.w4 31 16, w := bitField c.w4 15 0, c := bitField c.w0 21 19 }

/-- Descriptor D of R114. -/
def Command.descD (c : Command) : Desc :=
  { base := c.w5.toNat, h := bitField c.w6 31 16, w := bitField c.w6 15 0, c := bitField c.w0 24 22 }

/-- RSV0, RSV1 and W7 are all 0 (R119). -/
def Command.reservedClear (c : Command) : Bool :=
  bitField c.w0 7 6 == 0 && bitField c.w0 31 25 == 0 && c.w7 == 0#32

/-- A command that uses METH: decoded, or BAD_METHOD where METH is 3 (R116). -/
def Command.withMethod (c : Command) (f : Method → Instr) : Decoded :=
  match methodOfCode (bitField c.w0 5 4) with
  | some m => .instr (f m)
  | none => .reject .badMethod

/-- Decode a command whose opcode is legal and whose reserved fields are 0 (R115). -/
def Command.decodeLegal (c : Command) : Decoded :=
  match bitField c.w0 3 0 with
  | 0 => .instr .endRun
  | 1 => c.withMethod fun m => .encode m c.descA c.descB c.descD
  | 2 => c.withMethod fun m => .decode m c.descA c.descB c.descD
  | 3 => .instr (.resize c.descA c.descD)
  | 4 => .instr (.binarize (bitField c.w0 15 8) c.descA c.descD)
  | 5 => c.withMethod fun m => .embed m c.descA c.descB c.descD
  | 6 => c.withMethod fun m => .extract m c.descA c.descB c.descD
  | _ => .reject .illegalOpcode

/-- Decode eight command words: ILLEGAL_OPCODE, then RESERVED, then BAD_METHOD, else the command (R121, R266). -/
def decodeCommand (c : Command) : Decoded :=
  if 7 ≤ bitField c.w0 3 0 then .reject .illegalOpcode
  else if !c.reservedClear then .reject .reserved
  else c.decodeLegal

/-- Decode from the front of a list of bytes, total on any bytes (R121): the outcome and the bytes after the command.
"A decoder always consumes exactly 32 bytes" (R110). -/
def decodeBytes (bs : List Byte) : Decoded × List Byte :=
  if bs.length < 32 then (.reject .tooShort, bs) else (decodeCommand (commandOfBytes bs), bs.drop 32)

/-- The instruction the decoder reads from an instruction whose bits are `w`, bit 0 the least significant bit of W0 and
later words counting on; every bit from `nbits` up is 0. -/
def decodeTableWord (nbits w : Nat) : Option Instr :=
  match (decodeBytes (leBytes 32 (w % 2 ^ nbits))).1 with
  | .instr i => some i
  | .reject _ => none

/-! The encoder. -/

/-- The code of a method (R116). -/
def Method.code : Method → Nat
  | .direct => 0
  | .bitwiseAdd => 1
  | .negatedBitwiseAdd => 2

/-- A header word from its fields (R112); RSV0 and RSV1 are 0 (R119). -/
def headerWord (opc meth thr ca cb cd : Nat) : Word :=
  BitVec.ofNat 32 (opc + 2 ^ 4 * meth + 2 ^ 8 * thr + 2 ^ 16 * ca + 2 ^ 19 * cb + 2 ^ 22 * cd)

/-- A dimensions word (R113). -/
def dimsWord (x : Desc) : Word := BitVec.ofNat 32 (x.w + 2 ^ 16 * x.h)

/-- The descriptor an assembler writes for an ignored operand: all 0 (R123). -/
def Desc.zero : Desc := { base := 0, h := 0, w := 0, c := 0 }

/-- A command from its header fields and descriptors; W7 is 0 (R111, R114, R119). -/
def commandOf (opc meth thr : Nat) (a b d : Desc) : Command :=
  { w0 := headerWord opc meth thr a.c b.c d.c,
    w1 := BitVec.ofNat 32 a.base, w2 := dimsWord a,
    w3 := BitVec.ofNat 32 b.base, w4 := dimsWord b,
    w5 := BitVec.ofNat 32 d.base, w6 := dimsWord d,
    w7 := 0#32 }

/-- The words of a well-formed instruction (R115, R123): every ignored and reserved field is 0. -/
def encode : Instr → Command
  | .endRun => commandOf 0 0 0 Desc.zero Desc.zero Desc.zero
  | .encode m a b d => commandOf 1 m.code 0 a b d
  | .decode m a b d => commandOf 2 m.code 0 a b d
  | .resize a d => commandOf 3 0 0 a Desc.zero d
  | .binarize t a d => commandOf 4 0 t a Desc.zero d
  | .embed m a b d => commandOf 5 m.code 0 a b d
  | .extract m a b d => commandOf 6 m.code 0 a b d

/-- The 32 bytes of a well-formed instruction. -/
def encodeBytes (i : Instr) : List Byte := (encode i).bytes

end Sys2Proof
end

