-- ==== Sys2Proof/Machine/Operands.lean ====
section
/-! DEFINITION. The operand form of the block, the image descriptor: its size, region and sample addresses (R13, R75),
and the checks on descriptors that R266 orders (R78, R79, R118, R113). -/

namespace Sys2Proof

/-- `size(desc) = H * W * C` bytes (R13). -/
def Desc.size (x : Desc) : Nat := x.h * x.w * x.c

/-- The first address after `region(desc) = [base, base + size(desc))` (R13); the sum is exact (R78). -/
def Desc.limit (x : Desc) : Nat := x.base + x.size

/-- The address of sample `(y, x, c)`: row-major, channels interleaved (R75). -/
def Desc.addr (im : Desc) (y x c : Nat) : Nat := im.base + (y * im.w + x) * im.c + c

/-- The address lies in `region(desc)` (R13). -/
def Desc.covers (x : Desc) (address : Nat) : Bool := x.base ≤ address && address < x.limit

/-- The channel count is outside `[1, CMAX]` (R118). -/
def Desc.channelsBad (x : Desc) (cmax : Nat) : Bool := !(1 ≤ x.c && x.c ≤ cmax)

/-- H or W is 0, the source's "non-positive" size (R113). -/
def Desc.dimBad (x : Desc) : Bool := x.h == 0 || x.w == 0

/-- `base + size > MEM_SIZE`, computed exactly (R78). -/
def Desc.outOfBounds (x : Desc) (memSize : Nat) : Bool := memSize < x.limit

/-- The two regions have a byte in common (R79). -/
def Desc.overlaps (x z : Desc) : Bool := max x.base z.base < min x.limit z.limit

/-- The two images differ in rows or columns. -/
def Desc.sizeDiffers (x z : Desc) : Bool := x.h != z.h || x.w != z.w

/-- The two images differ in rows, columns or channels. -/
def Desc.shapeDiffers (x z : Desc) : Bool := x.sizeDiffers z || x.c != z.c

/-- The destination a data command writes; END writes none (R243, R245). -/
def Instr.dest : Instr → Option Desc
  | .endRun => none
  | .encode _ _ _ d => some d
  | .decode _ _ _ d => some d
  | .resize _ d => some d
  | .binarize _ _ d => some d
  | .embed _ _ _ d => some d
  | .extract _ _ _ d => some d

/-- The sources a command uses (R115). -/
def Instr.sources : Instr → List Desc
  | .endRun => []
  | .encode _ a b _ => [a, b]
  | .decode _ a b _ => [a, b]
  | .resize a _ => [a]
  | .binarize _ a _ => [a]
  | .embed _ a b _ => [a, b]
  | .extract _ a b _ => [a, b]

end Sys2Proof

namespace Sys2Proof.Machine

/-- The first failing check of a list of checks in the order of R266: each is whether it fails, and its code. -/
def firstFailing : List (Bool × FCode) → Option FCode
  | [] => none
  | (true, code) :: _ => some code
  | (false, _) :: rest => firstFailing rest

/-- The checks of a command with source `a` and destination `d` (R266 steps 6 to 10): `chA`, `chD` say which channel
counts are bad for the command, `shape` whether its shape rule is broken. -/
def checksAD (memSize : Nat) (chA chD shape : Bool) (a d : Desc) : List (Bool × FCode) :=
  [(chA, .badChannels), (chD, .badChannels),
   (a.dimBad, .badDim), (d.dimBad, .badDim),
   (shape, .shape),
   (a.outOfBounds memSize, .bounds), (d.outOfBounds memSize, .bounds),
   (d.overlaps a, .aliasing)]

/-- The checks of a command with sources `a`, `b` and destination `d`: A before B before D inside each, and D against A
before D against B (R266 steps 6 to 10). -/
def checksABD (memSize : Nat) (chA chB chD shape : Bool) (a b d : Desc) : List (Bool × FCode) :=
  [(chA, .badChannels), (chB, .badChannels), (chD, .badChannels),
   (a.dimBad, .badDim), (b.dimBad, .badDim), (d.dimBad, .badDim),
   (shape, .shape),
   (a.outOfBounds memSize, .bounds), (b.outOfBounds memSize, .bounds), (d.outOfBounds memSize, .bounds),
   (d.overlaps a, .aliasing), (d.overlaps b, .aliasing)]

/-- The destination cells of a command: for every sample `(y, x, c)` of `d`, its address and the value `f y x c`. The
order is row-major; R87 allows any. -/
def imageCells (d : Desc) (f : (y x c : Nat) → Byte) : List Host.Cell :=
  (List.range d.h).flatMap fun y => (List.range d.w).flatMap fun x => (List.range d.c).map fun c =>
    (d.addr y x c, f y x c)

end Sys2Proof.Machine
end

