-- ==== Sys2Proof/Machine/Ops.lean ====
section
/-! DEFINITION. The named operations of the machine: memory bytes and words (R72), the command latch (R49), completing
a command (R244), taking a fault (R262) and leaving one (CLEAR, R275; START, R240), and the one way a data command is
performed (R242, R243). -/

namespace Sys2Proof.Machine

/-- The value written at an address, if any was. -/
def Memory.look : Memory → Nat → Option Byte
  | [], _ => none
  | (k, v) :: m, a => if k = a then some v else Memory.look m a

/-- Write one byte, keeping the canonical form. -/
def Memory.put : Memory → Nat → Byte → Memory
  | [], a, b => [(a, b)]
  | (k, v) :: m, a, b =>
    if a < k then (a, b) :: (k, v) :: m
    else if a = k then (a, b) :: m
    else (k, v) :: Memory.put m a b

/-- Write a list of cells, one after another. -/
def Memory.putAll (m : Memory) (cells : List Host.Cell) : Memory :=
  cells.foldl (fun m p => Memory.put m p.1 p.2) m

/-- What a memory reads as at an address: the byte written there, else the unspecified byte it holds since power-up, a
free value (R301, log 3). -/
def Memory.byteOr (m : Memory) (powerUp address : Nat) : Byte :=
  (Memory.look m address).getD (Config.powerUpByte powerUp address)

/-- The byte of the sample memory at an address (R72). -/
def State.byte (s : State) (address : Nat) : Byte := Memory.byteOr s.mem s.cfg.powerUp address

/-- `MemRead(a, n)`: the `n` bytes read little-endian (R72). -/
def State.memRead (s : State) (a n : Nat) : Nat := leNat ((List.range n).map fun i => s.byte (a + i))

/-- `MemWrite(a, n, v)` on a memory: byte `i` is `(v div 256^i) mod 256` (R72). -/
def Memory.writeLe (m : Memory) (a n v : Nat) : Memory :=
  Memory.putAll m ((leBytes n v).zipIdx.map fun p => (a + p.2, p.1))

/-- `S(X, y, x, c)`: one sample of an image (R75). -/
def State.sample (s : State) (im : Desc) (y x c : Nat) : Byte := s.byte (im.addr y x c)

/-- Word `i` of the command at CUR: `MemRead(CUR + 4*i, 4)` (R241). -/
def State.commandWord (s : State) (i : Nat) : Word := BitVec.ofNat 32 (s.memRead (s.cur.toNat + 4 * i) 4)

/-- The eight words at CUR (R241). -/
def State.fetchCommand (s : State) : Command :=
  { w0 := s.commandWord 0, w1 := s.commandWord 1, w2 := s.commandWord 2, w3 := s.commandWord 3,
    w4 := s.commandWord 4, w5 := s.commandWord 5, w6 := s.commandWord 6, w7 := s.commandWord 7 }

/-- "The eight words go into the command latch" (R241, R49a). -/
def State.latchCommand (s : State) : State := { s with latch := some s.fetchCommand }

/-- `raise Fault(code)` (R262), the one way a fault is taken: STATE and FCODE are written; CUR, COUNT and the memory
keep what they hold. The command in progress ends, so the latch and the progress are empty (R49, log 13). -/
def State.raiseFault (s : State) (code : FCode) : State :=
  { s with run := .fault, fcode := code, latch := none, progress := [] }

/-- CLEAR (R275), the return from DONE or FAULT: STATE to IDLE and FCODE to 0, CUR and COUNT kept; no effect from IDLE
or BUSY. -/
def State.clear (s : State) : State :=
  if s.run = .done ∨ s.run = .fault then { s with run := .idle, fcode := .none } else s

/-- The part of START that acts when no run is in progress, before the alignment check (R240). -/
def State.beginRun (s : State) : State :=
  { s with run := .busy, fcode := .none, count := 0#32, cur := s.cmdptr, startMem := s.mem }

/-- START (R240): no effect while BUSY; otherwise a run begins at CMDPTR, and faults ALIGN at once where CMDPTR is not
4-aligned (R81). -/
def State.start (s : State) : State :=
  if s.run = .busy then s
  else if s.cmdptr.toNat % 4 ≠ 0 then s.beginRun.raiseFault .align
  else s.beginRun

/-- Write the destination samples of a command, and note them as its progress (R243, R49b). -/
def State.store (s : State) (cells : List Host.Cell) : State :=
  { s with mem := Memory.putAll s.mem cells, progress := cells.map Prod.fst }

/-- A data command completes (R244): COUNT plus 1 modulo 2^32, CUR plus 32; no command is in progress (R49). -/
def State.complete (s : State) : State :=
  { s with count := s.count + 1#32, cur := s.cur + 32#32, latch := none, progress := [] }

/-- The run ends at an END command (R245): STATE to DONE, everything else kept; no command is in progress (R49). -/
def State.finish (s : State) : State := { s with run := .done, latch := none, progress := [] }

/-- Perform a data command (R242, R243): the first failing check raises its fault and nothing is written; if every
check passes, the destination samples are written and the command completes. -/
def State.perform (s : State) (checks : List (Bool × FCode)) (cells : List Host.Cell) :
    Host.Outcome State Fault Refusal :=
  match firstFailing checks with
  | some code => .next (s.raiseFault code)
  | none => .next (s.store cells).complete

end Sys2Proof.Machine
end

