-- ==== Sys2Proof/Machine/Binarizer.lean ====
section
/-! DEFINITION. The Binarizer: the threshold function (R170) and the BINARIZE command (R175). -/

namespace Sys2Proof.Machine

/-- `bin(T, v) = 255 if v > T else 0`, strict and unsigned (R170). -/
def bin (t : Nat) (v : Byte) : Byte := if t < v.toNat then 255#8 else 0#8

/-- The checks of BINARIZE, in order (R175). -/
def binarizeChecks (p : Config) (a d : Desc) : List (Bool × FCode) :=
  checksAD p.memSize (a.channelsBad p.cmax) (d.channelsBad p.cmax) (d.shapeDiffers a) a d

/-- The value BINARIZE writes at sample `(y, x, c)` (R175). -/
def binarizeSample (s : State) (t : Nat) (a : Desc) (y x c : Nat) : Byte := bin t (s.sample a y x c)

/-- BINARIZE (R175): threshold every sample of an image. -/
def execBinarize (t : Nat) (a d : Desc) (s : State) : Host.Outcome State Fault Refusal :=
  s.perform (binarizeChecks s.cfg a d) (imageCells d (binarizeSample s t a))

end Sys2Proof.Machine
end

