-- ==== Sys2Proof/Machine/Control.lean ====
section
/-! DEFINITION. The END command (R245), the block's only control command (R247, R248). -/

namespace Sys2Proof.Machine

/-- END (R245): STATE to DONE; FCODE, CUR, COUNT and the memory are kept. -/
def execEndRun (s : State) : Host.Outcome State Fault Refusal := .next s.finish

end Sys2Proof.Machine
end

