-- ==== Sys2Proof/Machine/PixelCodec.lean ====
section
/-! DEFINITION. The pixel encoder and decoder (R190 to R197, the parameter COMBINE) and the ENCODE and DECODE commands
(R200, R205). -/

namespace Sys2Proof

/-- Every list of `n` bits. -/
def bitLists : (n : Nat) → List (List Byte)
  | 0 => [[]]
  | n + 1 => (bitLists n).flatMap fun bits => [0#8 :: bits, 1#8 :: bits]

/-- A combination of the user's choice as the parameter COMBINE: the lists of up to `channels` bits that it combines to 1
(R8, R197). -/
def Combine.ofFunction (channels : Nat) (f : List Byte → Byte) : Combine :=
  .given (((List.range (channels + 1)).flatMap bitLists).filter fun bits => f bits == 1#8)

end Sys2Proof

namespace Sys2Proof.Machine

/-- `lsb(v) = v & 1` (R10), as a byte. -/
def lsb (v : Byte) : Byte := v &&& 1#8

/-- The watermark bit, `wb(w) = w & 1` (R190). -/
def wb (w : Byte) : Byte := w &&& 1#8

/-- The pixel encoder (R192, R193, R194). -/
def penc (m : Method) (c w : Byte) : Byte :=
  match m with
  | .direct => (c &&& 0xFE#8) ||| wb w
  | .bitwiseAdd => (c &&& 0xFE#8) ||| (lsb c ^^^ wb w)
  | .negatedBitwiseAdd => (c &&& 0xFE#8) ||| (~~~(lsb c ^^^ wb w) &&& 1#8)

/-- The pixel decoder (R195): a bit, 0 or 1, as a byte. DIRECT does not read `c`. -/
def pdec (m : Method) (v c : Byte) : Byte :=
  match m with
  | .direct => lsb v
  | .bitwiseAdd => lsb v ^^^ lsb c
  | .negatedBitwiseAdd => ~~~(lsb v ^^^ lsb c) &&& 1#8

/-- Any choice of a bit made to meet the laws of R197: where every bit agrees, that bit; else the choice. -/
def unanimousOr (raw : List Byte → Bool) (bits : List Byte) : Byte :=
  match bits with
  | [] => 0#8
  | b :: rest => if rest.all (· == b) then b else if raw bits then 1#8 else 0#8

/-- `COMBINE(C, b)` of the decoded bits `b(0) .. b(C-1)`: the default, channel 0 (R196), or the function given
as the parameter COMBINE, which meets R197 (R8). -/
def combine (k : Combine) (bits : List Byte) : Byte :=
  match k with
  | .channel0 => bits.headD 0#8
  | .given ones => unanimousOr (fun l => ones.contains l) bits

/-- The combined bit of one pixel of a watermarked image `a` against its carrier `b` (R205, R225). -/
def pixelBit (s : State) (m : Method) (a b : Desc) (y x : Nat) : Byte :=
  combine s.cfg.combine ((List.range a.c).map fun c => pdec m (s.sample a y x c) (s.sample b y x c))

/-- The checks of ENCODE, in order (R200). -/
def encodeChecks (p : Config) (a b d : Desc) : List (Bool × FCode) :=
  checksABD p.memSize (a.channelsBad p.cmax) (b.c != 1) (d.channelsBad p.cmax)
    (b.sizeDiffers a || d.shapeDiffers a) a b d

/-- The value ENCODE writes at sample `(y, x, c)` (R200): the same watermark sample for every channel of a pixel. -/
def encodeSample (s : State) (m : Method) (a b : Desc) (y x c : Nat) : Byte :=
  penc m (s.sample a y x c) (s.sample b y x 0)

/-- ENCODE (R200): embed a watermark plane already at carrier size. -/
def execEncode (m : Method) (a b d : Desc) (s : State) : Host.Outcome State Fault Refusal :=
  s.perform (encodeChecks s.cfg a b d) (imageCells d (encodeSample s m a b))

/-- The checks of DECODE, in order (R205). -/
def decodeChecks (p : Config) (a b d : Desc) : List (Bool × FCode) :=
  checksABD p.memSize (a.channelsBad p.cmax) (b.channelsBad p.cmax) (d.c != 1)
    (b.shapeDiffers a || d.sizeDiffers a) a b d

/-- The value DECODE writes at sample `(y, x, 0)` (R205): a raw bit, 0 or 1 (R207). -/
def decodeSample (s : State) (m : Method) (a b : Desc) (y x _ : Nat) : Byte := pixelBit s m a b y x

/-- DECODE (R205): recover the bit field of a watermarked image against its original carrier. -/
def execDecode (m : Method) (a b d : Desc) (s : State) : Host.Outcome State Fault Refusal :=
  s.perform (decodeChecks s.cfg a b d) (imageCells d (decodeSample s m a b))

end Sys2Proof.Machine
end

