-- ==== Sys2Proof/Machine/Sampler.lean ====
section
/-! DEFINITION. The Image Sampler: the nearest-neighbour index map (R150 to R152, the parameter NN_MAP) and the RESIZE
command (R157). -/

namespace Sys2Proof

/-- A map of the user's choice as the parameter NN_MAP: its table for all extents from 1 to `extent` (R8, R151). -/
def NnMap.ofFunction (extent : Nat) (f : (d dn sn : Nat) → Nat) : NnMap :=
  .given ((List.range extent).flatMap fun a => (List.range extent).map fun b =>
    { dn := a + 1, sn := b + 1, indices := (List.range (a + 1)).map fun d => f d (a + 1) (b + 1) })

end Sys2Proof

namespace Sys2Proof.Machine

/-- The greatest of `f 0, …, f n`. -/
def runningMax (f : Nat → Nat) : Nat → Nat
  | 0 => f 0
  | n + 1 => max (runningMax f n) (f (n + 1))

/-- Any function made to meet the laws of R151: the identity at equal extents, else cut off below `sn` and made
monotone. A function that meets the laws already is not changed (`Laws.lawfulNn_of_laws`, log 4). -/
def lawfulNn (raw : (d dn sn : Nat) → Nat) (d dn sn : Nat) : Nat :=
  if dn = sn then d else runningMax (fun i => min (raw i dn sn) (sn - 1)) d

/-- The default index map: `(d * Sn) div Dn` (R150). -/
def floorNn (d dn sn : Nat) : Nat := d * sn / dn

/-- A map given as a table: the first row for the two extents, or the default where there is none. -/
def tableNn (rows : List NnRow) (d dn sn : Nat) : Nat :=
  match rows.find? fun r => r.dn == dn && r.sn == sn with
  | some r => r.indices.getD d 0
  | none => floorNn d dn sn

/-- `nn(d, Dn, Sn)`: the default (R150), or the map given as the parameter NN_MAP, which meets R151 (R8). -/
def nn (k : NnMap) (d dn sn : Nat) : Nat :=
  match k with
  | .floorMap => floorNn d dn sn
  | .given rows => lawfulNn (tableNn rows) d dn sn

/-- The checks of RESIZE, in order (R157): both images single-channel; no SHAPE check. -/
def resizeChecks (p : Config) (a d : Desc) : List (Bool × FCode) :=
  checksAD p.memSize (a.c != 1) (d.c != 1) false a d

/-- The value RESIZE writes at sample `(y, x, 0)` of `d` (R153, R157). -/
def resizeSample (s : State) (a d : Desc) (y x _ : Nat) : Byte :=
  s.sample a (nn s.cfg.nnMap y d.h a.h) (nn s.cfg.nnMap x d.w a.w) 0

/-- RESIZE (R157): resample a single-channel image. -/
def execResize (a d : Desc) (s : State) : Host.Outcome State Fault Refusal :=
  s.perform (resizeChecks s.cfg a d) (imageCells d (resizeSample s a d))

end Sys2Proof.Machine
end

