-- ==== Sys2Proof/Machine/Orchestrators.lean ====
section
/-! DEFINITION. The embedding and extraction orchestrators: the EMBED (R220) and EXTRACT (R225) commands. -/

namespace Sys2Proof.Machine

/-- The extraction threshold, fixed at 0 (R172). -/
def extractThreshold : Nat := 0

/-- The checks of EMBED, in order (R220): the watermark may have any size. -/
def embedChecks (p : Config) (a b d : Desc) : List (Bool × FCode) :=
  checksABD p.memSize (a.channelsBad p.cmax) (b.c != 1) (d.channelsBad p.cmax) (d.shapeDiffers a) a b d

/-- The value EMBED writes at sample `(y, x, c)` (R220): one nearest-neighbour stretch of the watermark (R222), encoded
into every channel. -/
def embedSample (s : State) (m : Method) (a b : Desc) (y x c : Nat) : Byte :=
  penc m (s.sample a y x c) (s.sample b (nn s.cfg.nnMap y a.h b.h) (nn s.cfg.nnMap x a.w b.w) 0)

/-- EMBED (R220): resample a watermark to carrier size and embed it into every channel of the carrier. -/
def execEmbed (m : Method) (a b d : Desc) (s : State) : Host.Outcome State Fault Refusal :=
  s.perform (embedChecks s.cfg a b d) (imageCells d (embedSample s m a b))

/-- The checks of EXTRACT, in order (R225): the target may have any size. -/
def extractChecks (p : Config) (a b d : Desc) : List (Bool × FCode) :=
  checksABD p.memSize (a.channelsBad p.cmax) (b.channelsBad p.cmax) (d.c != 1) (b.shapeDiffers a) a b d

/-- The value EXTRACT writes at sample `(v, u, 0)` (R225): decode, resample, binarize with `T_EXT`. -/
def extractSample (s : State) (m : Method) (a b d : Desc) (v u _ : Nat) : Byte :=
  bin extractThreshold (pixelBit s m a b (nn s.cfg.nnMap v d.h a.h) (nn s.cfg.nnMap u d.w a.w))

/-- EXTRACT (R225): decode a watermarked image, resample the bit field to the watermark's size and binarize it. -/
def execExtract (m : Method) (a b d : Desc) (s : State) : Host.Outcome State Fault Refusal :=
  s.perform (extractChecks s.cfg a b d) (imageCells d (extractSample s m a b d))

end Sys2Proof.Machine
end

