-- ==== Sys2Proof/Machine/Dispatch.lean ====
section
/-! DEFINITION. One arm per constructor of Instr (R243). -/

namespace Sys2Proof.Machine

/-- Perform one decoded command (R243). -/
def exec (i : Instr) (s : State) : Host.Outcome State Fault Refusal :=
  match i with
  | .endRun => Sys2Proof.Machine.execEndRun s
  | .encode m a b d => Sys2Proof.Machine.execEncode m a b d s
  | .decode m a b d => Sys2Proof.Machine.execDecode m a b d s
  | .resize a d => Sys2Proof.Machine.execResize a d s
  | .binarize t a d => Sys2Proof.Machine.execBinarize t a d s
  | .embed m a b d => Sys2Proof.Machine.execEmbed m a b d s
  | .extract m a b d => Sys2Proof.Machine.execExtract m a b d s

end Sys2Proof.Machine
end

