-- ==== Sys2Proof/Machine/Sequencer.lean ====
section
/-! DEFINITION. The sequencer's command step (R241 to R244), and what a run writes (for R88 and R300). -/

namespace Sys2Proof.Machine

/-- The fault code of a decode rejection (R121, R261). A command too short to decode is one that cannot be fetched. -/
def rejectCode : Reject → FCode
  | .illegalOpcode => .illegalOpcode
  | .reserved => .reserved
  | .badMethod => .badMethod
  | .tooShort => .fetch

/-- Decode the latched words and perform the command, or raise the decode fault (R242, R243). With an empty latch there
is no command in progress and nothing happens. -/
def State.runLatched (s : State) : Host.Outcome State Fault Refusal :=
  match s.latch with
  | none => .next s
  | some c =>
    match decodeCommand c with
    | .reject r => .next (s.raiseFault (rejectCode r))
    | .instr i => exec i s

/-- The 32 bytes at CUR fit in the sample memory (R82). -/
def State.fetchable (s : State) : Bool := s.cur.toNat + 32 ≤ s.cfg.memSize

/-- One step of the sequencer (R241): FETCH where the command does not fit, else fetch into the latch, decode and
perform. It takes no step unless STATE = BUSY (R262, R302): the state is then left as it is (log 11). -/
def sequencerStep (s : State) : Host.Outcome State Fault Refusal :=
  if s.run = .busy then
    if s.fetchable then s.latchCommand.runLatched else .next (s.raiseFault .fetch)
  else .next s

/-- The bytes of `region(d)` as a state holds them. -/
def State.regionCells (s : State) (d : Desc) : List Host.Cell :=
  (List.range d.size).map fun k => (d.base + k, s.byte (d.base + k))

/-- What the command at CUR writes: the destination samples with their new values, if it is a data command that passes
its checks; else nothing (R243, R262). -/
def State.commandWrites (s : State) : List Host.Cell :=
  if s.run = .busy && s.fetchable then
    match decodeCommand s.fetchCommand, sequencerStep s with
    | .instr i, .next t => if t.run = .busy then (i.dest.map t.regionCells).getD [] else []
    | _, _ => []
  else []

/-- What the rest of a run writes, command by command, with fuel for the commands it can have (R246). -/
def State.runWrites : Nat → State → List Host.Cell
  | 0, _ => []
  | n + 1, s =>
    if s.run = .busy then
      match sequencerStep s with
      | .next t => s.commandWrites ++ State.runWrites n t
      | _ => []
    else []

/-- The state in which the run in progress began: memory as START found it, CUR and COUNT counted back (log 7). -/
def State.runBegin (s : State) : State :=
  { s with mem := s.startMem, cur := s.cur - 32#32 * s.count, count := 0#32, latch := none, progress := [] }

/-- The values that the run in progress, from its START to its end, writes at an address (R88). -/
def State.runValues (s : State) (address : Nat) : List Byte :=
  ((State.runWrites (s.cfg.memSize / 32 + 1) s.runBegin).filter fun p => p.1 == address).map Prod.snd

end Sys2Proof.Machine
end

