-- ==== Sys2Proof/Machine/HostPort.lean ====
section
/-! DEFINITION. The host's side of the block: the register window (R33 to R45), the sample memory as the host reaches it
(R71, R88, R320, R321) and the reset input (R300). -/

namespace Sys2Proof.Machine

/-- The identification constant (R34). -/
def idWord : Word := 0x4C534231#32

/-- A read of the register at an offset (R33 to R44): offsets 0x18 to 0x3C read 0 (R44). -/
def State.readReg (s : State) (offset : Nat) : Word :=
  if offset = 0x00 then idWord
  else if offset = 0x04 then s.ctrlWord
  else if offset = 0x08 then s.statusWord
  else if offset = 0x0C then s.cmdptr
  else if offset = 0x10 then s.cur
  else if offset = 0x14 then s.count
  else 0#32

/-- A write of CTRL (R35, R36): IE first, from bit 2, in every state; then START if bit 0 is 1; then CLEAR only if bit 0
is 0 and bit 1 is 1. -/
def State.writeCtrl (s : State) (v : Word) : State :=
  let s1 := { s with ie := v.getLsbD 2 }
  if v.getLsbD 0 then s1.start else if v.getLsbD 1 then s1.clear else s1

/-- A write of the register at an offset (R33): CTRL and CMDPTR only; every other write has no effect (R34, R38, R44;
CUR and COUNT are read-only, R42, R43). -/
def State.writeReg (s : State) (offset : Nat) (v : Word) : State :=
  if offset = 0x04 then s.writeCtrl v
  else if offset = 0x0C then { s with cmdptr := v }
  else s

/-- The register accesses that are defined: one aligned 32-bit word inside the 64-byte window (R45). -/
def registerAccessOk (offset width : Nat) : Bool := width == 4 && offset % 4 == 0 && decide (offset < 64)

/-- What a host read of a memory byte returns: its current value, but while STATE = BUSY, for a byte the run writes,
"any value: the old one, or any value the run writes there" (R88), a free choice (log 7). -/
def State.hostByte (s : State) (address : Nat) : Byte :=
  if s.run = .busy then
    match s.runValues address with
    | [] => s.byte address
    | v :: vs =>
      let allowed := s.runBegin.byte address :: v :: vs
      allowed.getD (Config.raceChoice s.draws % allowed.length) v
  else s.byte address

/-- The memory when reset comes: with a command in progress, each byte of its destination holds its old value or the
value the command would write, a free choice byte by byte (R300, log 8). Every other byte keeps what it holds, written by
the host or by a command (log 21). -/
def State.tornMem (s : State) : Memory :=
  Memory.putAll s.mem (s.commandWrites.filter fun p => Config.tornWrite s.draws p.1)

/-- Reset (R300): every register and field to the value of R50, a run in progress abandoned, the memory torn as above and
otherwise not written (R301). That bytes a command wrote are kept, where R50's table and S1 read "any value" after reset
for every byte the host has not written, is the model's choice (DEDUCED, log 21). The parameters, the host's moves to
come and the draw counter are the model's own and stay (log 8). -/
def State.hostReset (s : State) : State :=
  { State.resetOf s.cfg with mem := s.tornMem, inbox := s.inbox, draws := s.draws + 1 }

/-- One move of the host (R320). -/
def hostMove (m : HostMove) (s : State) : Host.Outcome State Fault Refusal :=
  match m with
  | .pause => sequencerStep s
  | .readReg offset width =>
    if registerAccessOk offset width then .next { s with busData := some (s.readReg offset) }
    else .refused (.registerAccess offset width)
  | .writeReg offset width v =>
    if registerAccessOk offset width then .next (s.writeReg offset v)
    else .refused (.registerAccess offset width)
  | .readMem address =>
    if address < s.cfg.memSize then
      .next { s with busData := some ((s.hostByte address).setWidth 32), draws := s.draws + 1 }
    else .fault (.noSuchByte address)
  | .writeMem address v =>
    if s.run = .busy then .refused (.writeWhileBusy address)
    else if address < s.cfg.memSize then .next { s with mem := Memory.put s.mem address v }
    else .fault (.noSuchByte address)
  | .reset => .next s.hostReset

/-- One step of the block and its host: the host's next move if one is due, else the sequencer's step (R14, log 6). -/
def machineStep (s : State) : Host.Outcome State Fault Refusal :=
  match s.inbox with
  | [] => sequencerStep s
  | m :: rest => hostMove m { s with inbox := rest }

/-- Where `withFetchWord` places a command: at CUR, or at 0 where a command at CUR does not fit (log 12). -/
def State.placeAddress (s : State) : Word := if s.fetchable then s.cur else 0#32

/-- The state with a command's bytes placed so that the next step fetches it: no host move due, STATE = BUSY with no
fault recorded, CUR at the command (log 12). -/
def State.placeCommand (s : State) (nbits w : Nat) : State :=
  { s with inbox := [], run := .busy, fcode := .none, cur := s.placeAddress,
           mem := Memory.writeLe s.mem s.placeAddress.toNat 32 (w % 2 ^ nbits) }

end Sys2Proof.Machine
end

