-- ==== Sys2Proof/Machine/Step.lean ====
section
/-! DEFINITION. One step of the machine. -/

namespace Sys2Proof.Machine

/-- One step: the host's next move if one is due, else one command of the sequencer (`machineStep`). -/
def step (s : State) : Host.Outcome State Fault Refusal := machineStep s

/-- The state with an instruction stored where the next step fetches (log 12). -/
def State.withFetchWord (s : State) (nbits w : Nat) : State := s.placeCommand nbits w

end Sys2Proof.Machine
end

