-- ==== Sys2Proof/Machine/Assembler.lean ====
section
/-! DEFINITION. The assembler of R122 to R124: the text of one line to a line, the COPY pseudo-instruction, the operand
ranges it rejects, and the command it writes (log 15 for what the rules leave open of the text). -/

namespace Sys2Proof.Machine

/-- One line of a program: a command, or the one pseudo-instruction (R122, R124). -/
inductive AsmLine where
  | instr (i : Instr)
  | copy (d a : Desc)
  deriving DecidableEq, Repr

/-- The operand ranges of R123: H and W in `[1, 65535]`, C in `[1, 7]`, base in `[0, 2^32 - 1]`. -/
def asmOperandOk (x : Desc) : Bool :=
  decide (1 ≤ x.h ∧ x.h ≤ 65535) && decide (1 ≤ x.w ∧ x.w ≤ 65535) && decide (1 ≤ x.c ∧ x.c ≤ 7) &&
    decide (x.base < 2 ^ 32)

/-- Every operand of the instruction is in the ranges of R123; `<thr>` is in `[0, 255]`. -/
def asmInstrOk : Instr → Bool
  | .endRun => true
  | .encode _ a b d => asmOperandOk a && asmOperandOk b && asmOperandOk d
  | .decode _ a b d => asmOperandOk a && asmOperandOk b && asmOperandOk d
  | .resize a d => asmOperandOk a && asmOperandOk d
  | .binarize t a d => decide (t ≤ 255) && asmOperandOk a && asmOperandOk d
  | .embed _ a b d => asmOperandOk a && asmOperandOk b && asmOperandOk d
  | .extract _ a b d => asmOperandOk a && asmOperandOk b && asmOperandOk d

/-- `COPY D, A`, with `A.C = D.C = 1` and equal sizes, expands to `RESIZE D, A` (R124). -/
def AsmLine.expand : AsmLine → Option Instr
  | .instr i => some i
  | .copy d a => if a.c = 1 ∧ d.c = 1 ∧ a.h = d.h ∧ a.w = d.w then some (.resize a d) else none

/-- The command the assembler writes for a line, or nothing where it rejects the line (R123). -/
def assemble (l : AsmLine) : Option Command :=
  match l.expand with
  | some i => if asmInstrOk i then some (encode i) else none
  | none => none

/-! The text of a line (R122). -/

/-- A character between the parts of a line. -/
def isBlank (ch : Char) : Bool := ch == ' ' || ch == '\t'

/-- The text without the blanks at its two ends. -/
def trimBlanks (t : List Char) : List Char := ((t.dropWhile isBlank).reverse.dropWhile isBlank).reverse

/-- The value of a digit, decimal or hexadecimal. -/
def digitValue (ch : Char) : Option Nat :=
  if '0' ≤ ch ∧ ch ≤ '9' then some (ch.toNat - '0'.toNat)
  else if 'a' ≤ ch ∧ ch ≤ 'f' then some (ch.toNat - 'a'.toNat + 10)
  else if 'A' ≤ ch ∧ ch ≤ 'F' then some (ch.toNat - 'A'.toNat + 10)
  else none

/-- Read digits after the value read so far. -/
def readDigits (radix : Nat) : Nat → List Char → Option Nat
  | acc, [] => some acc
  | acc, ch :: t =>
    match digitValue ch with
    | some v => if v < radix then readDigits radix (acc * radix + v) t else none
    | none => none

/-- A number of at least one digit. -/
def readNumber (radix : Nat) (t : List Char) : Option Nat :=
  match t with
  | [] => none
  | ch :: rest => readDigits radix 0 (ch :: rest)

/-- "a C-style decimal or `0x` hexadecimal number" (R122). -/
def readAnyNumber : List Char → Option Nat
  | '0' :: 'x' :: t => readNumber 16 t
  | t => readNumber 10 t

/-- The text before and after the first `sep`. -/
def splitFirst (sep : Char) : List Char → Option (List Char × List Char)
  | [] => none
  | ch :: t =>
    if ch = sep then some ([], t)
    else match splitFirst sep t with
      | some (p, q) => some (ch :: p, q)
      | none => none

/-- The parts of a text between commas, each without blanks at its ends. -/
def splitCommas (t : List Char) : List (List Char) :=
  (t.foldr (fun ch parts =>
    if ch = ',' then [] :: parts
    else match parts with
      | [] => [[ch]]
      | p :: ps => (ch :: p) :: ps) [[]]).map trimBlanks

/-- `@<base>[<H>x<W>x<C>]` (R122). -/
def readOperand (t : List Char) : Option Desc := do
  let (at', afterAt) ← splitFirst '@' t
  let (base, dims) ← splitFirst '[' afterAt
  let (h, rest) ← splitFirst 'x' dims
  let (w, rest2) ← splitFirst 'x' rest
  let (c, tail) ← splitFirst ']' rest2
  if at' ≠ [] ∨ tail ≠ [] then none
  else
    return { base := (← readAnyNumber base), h := (← readNumber 10 h), w := (← readNumber 10 w), c := (← readNumber 10 c) }

/-- `#<thr>` (R122). -/
def readThreshold : List Char → Option Nat
  | '#' :: t => readAnyNumber t
  | _ => none

/-- `<m>` (R122). -/
def readMethod (t : List Char) : Option Method :=
  if t = "DIRECT".toList then some .direct
  else if t = "BITWISE_ADD".toList then some .bitwiseAdd
  else if t = "NEGATED_BITWISE_ADD".toList then some .negatedBitwiseAdd
  else none

/-- A command with a method: `<name>.<m> D, A, B` (R122). -/
def readThree (name method : List Char) (ops : List (List Char)) : Option AsmLine := do
  let m ← readMethod method
  match ops with
  | [td, ta, tb] =>
    let d ← readOperand td
    let a ← readOperand ta
    let b ← readOperand tb
    if name = "ENCODE".toList then return .instr (.encode m a b d)
    else if name = "DECODE".toList then return .instr (.decode m a b d)
    else if name = "EMBED".toList then return .instr (.embed m a b d)
    else if name = "EXTRACT".toList then return .instr (.extract m a b d)
    else none
  | _ => none

/-- A command without a method: END, RESIZE, BINARIZE, COPY (R122, R124). -/
def readPlain (name : List Char) (args : List Char) : Option AsmLine :=
  if name = "END".toList then if trimBlanks args = [] then some (.instr .endRun) else none
  else
    match splitCommas args with
    | [td, ta] => do
      let d ← readOperand td
      let a ← readOperand ta
      if name = "RESIZE".toList then return .instr (.resize a d)
      else if name = "COPY".toList then return .copy d a
      else none
    | [td, ta, tt] => do
      let d ← readOperand td
      let a ← readOperand ta
      let t ← readThreshold tt
      if name = "BINARIZE".toList then return .instr (.binarize t a d) else none
    | _ => none

/-- The text of one line, less its comment: its first word and the rest (R122: "`;` starts a comment"). -/
def lineParts (t : List Char) : List Char × List Char :=
  let body := (t.takeWhile (· != ';')).dropWhile isBlank
  (body.takeWhile fun ch => !isBlank ch, body.dropWhile fun ch => !isBlank ch)

/-- One line of text; nothing where it is no line of R122. -/
def readLine (t : List Char) : Option AsmLine :=
  match lineParts t with
  | (word, args) =>
    match splitFirst '.' word with
    | some (name, method) => readThree name method (splitCommas args)
    | none => readPlain word args

/-- Assemble the text of one line (R122, R123). -/
def assembleText (t : List Char) : Option Command := (readLine t).bind assemble

/-- Assemble a program, one command per line; lines with nothing but blanks and a comment give no command (R122). -/
def assembleProgram (ls : List (List Char)) : Option (List Command) :=
  (ls.filter fun t => (lineParts t).1 != []).mapM assembleText

end Sys2Proof.Machine
end

