-- ==== Sys2Proof/Safety.lean ====
section
/-! DEFINITION. The terms claims are stated in: when a command executes normally and the state it then leaves, the state
a block fault leaves, a command performed sample by sample, and the invariant of the block. -/

namespace Sys2Proof

/-- A used descriptor with a legal channel count (R118). -/
abbrev Desc.ChannelsLegal (p : Config) (x : Desc) : Prop := 1 ≤ x.c ∧ x.c ≤ p.cmax

/-- A used descriptor with nonzero dimensions (R113) and in bounds (R78). -/
abbrev Desc.Fits (p : Config) (x : Desc) : Prop := 1 ≤ x.h ∧ 1 ≤ x.w ∧ x.base + x.h * x.w * x.c ≤ p.memSize

/-- One region ends before the other begins (R79). -/
abbrev Desc.Apart (x z : Desc) : Prop := x.base + x.h * x.w * x.c ≤ z.base ∨ z.base + z.h * z.w * z.c ≤ x.base

/-- H or W is 0 (R113). -/
abbrev Desc.NoDim (x : Desc) : Prop := x.h = 0 ∨ x.w = 0

/-- Out of bounds, the sum exact (R78). -/
abbrev Desc.Outside (p : Config) (x : Desc) : Prop := p.memSize < x.base + x.h * x.w * x.c

/-- The same rows and columns. -/
abbrev Desc.SameSize (x z : Desc) : Prop := x.h = z.h ∧ x.w = z.w

/-- The two regions have a byte in common (R79). -/
def Desc.Meets (x z : Desc) : Prop := ∃ address, x.covers address = true ∧ z.covers address = true

/-- `(y, x, c)` is a sample of the image (R75). -/
abbrev Desc.Has (im : Desc) (y x c : Nat) : Prop := y < im.h ∧ x < im.w ∧ c < im.c

/-- The samples of an image, row by row. -/
def Desc.coords (im : Desc) : List (Nat × Nat × Nat) :=
  (List.range im.h).flatMap fun y => (List.range im.w).flatMap fun x => (List.range im.c).map fun c => (y, x, c)

end Sys2Proof

namespace Sys2Proof.Machine

/-- When ENCODE executes normally: every check of R200 passes. -/
abbrev EncodeLegal (p : Config) (a b d : Desc) : Prop :=
  a.ChannelsLegal p ∧ b.c = 1 ∧ d.c = a.c ∧ b.SameSize a ∧ d.SameSize a ∧
    a.Fits p ∧ b.Fits p ∧ d.Fits p ∧ d.Apart a ∧ d.Apart b

/-- When DECODE executes normally: every check of R205 passes. -/
abbrev DecodeLegal (p : Config) (a b d : Desc) : Prop :=
  a.ChannelsLegal p ∧ b.c = a.c ∧ d.c = 1 ∧ b.SameSize a ∧ d.SameSize a ∧
    a.Fits p ∧ b.Fits p ∧ d.Fits p ∧ d.Apart a ∧ d.Apart b

/-- When RESIZE executes normally: every check of R157 passes. -/
abbrev ResizeLegal (p : Config) (a d : Desc) : Prop :=
  a.c = 1 ∧ d.c = 1 ∧ a.Fits p ∧ d.Fits p ∧ d.Apart a

/-- When BINARIZE executes normally: every check of R175 passes. -/
abbrev BinarizeLegal (p : Config) (a d : Desc) : Prop :=
  a.ChannelsLegal p ∧ d.c = a.c ∧ d.SameSize a ∧ a.Fits p ∧ d.Fits p ∧ d.Apart a

/-- When EMBED executes normally: every check of R220 passes. -/
abbrev EmbedLegal (p : Config) (a b d : Desc) : Prop :=
  a.ChannelsLegal p ∧ b.c = 1 ∧ d.c = a.c ∧ d.SameSize a ∧
    a.Fits p ∧ b.Fits p ∧ d.Fits p ∧ d.Apart a ∧ d.Apart b

/-- When EXTRACT executes normally: every check of R225 passes. -/
abbrev ExtractLegal (p : Config) (a b d : Desc) : Prop :=
  a.ChannelsLegal p ∧ b.c = a.c ∧ d.c = 1 ∧ b.SameSize a ∧
    a.Fits p ∧ b.Fits p ∧ d.Fits p ∧ d.Apart a ∧ d.Apart b

/-- The state a completed data command leaves, for the memory `m` it leaves: COUNT and CUR advance, no command is in
progress, every other register, parameter and model field as before (R244, R49). -/
def State.completed (s : State) (m : Memory) : State :=
  { s with mem := m, count := s.count + 1#32, cur := s.cur + 32#32, latch := none, progress := [] }

/-- The state a block fault leaves (R262): only STATE and FCODE are written, and no command is in progress (R49). -/
def State.faulted (s : State) (code : FCode) : State :=
  { s with run := .fault, fcode := code, latch := none, progress := [] }

/-- A command that completes over destination `d` with sample values `f`: it answers the completed state, each sample of
`d` holds its value, and every byte outside `region(d)` reads as before. -/
def CompletesWith (i : Instr) (s : State) (d : Desc) (f : (y x c : Nat) → Byte) : Prop :=
  ∃ m, exec i s = .next (s.completed m) ∧
    (∀ y x c, d.Has y x c → (s.completed m).byte (d.base + (y * d.w + x) * d.c + c) = f y x c) ∧
    (∀ address, d.covers address = false → (s.completed m).byte address = s.byte address)

/-- An outcome takes the first fault of a list whose condition holds (R266). -/
def FaultsInOrder (o : Host.Outcome State Fault Refusal) (s : State) : List (Prop × FCode) → Prop
  | [] => True
  | (broken, code) :: rest => (broken → o = .next (s.faulted code)) ∧ (¬ broken → FaultsInOrder o s rest)

/-- The value a data command gives a sample of its destination, as its rule's pseudocode computes it from a state. -/
def sampleValue (i : Instr) (s : State) (y x c : Nat) : Byte :=
  match i with
  | .endRun => 0#8
  | .encode m a b _ => encodeSample s m a b y x c
  | .decode m a b _ => decodeSample s m a b y x c
  | .resize a d => resizeSample s a d y x c
  | .binarize t a _ => binarizeSample s t a y x c
  | .embed m a b _ => embedSample s m a b y x c
  | .extract m a b d => extractSample s m a b d y x c

/-- One sample of a command performed by itself: its sources are read in the state the earlier samples left (R87). -/
def writeSample (i : Instr) (d : Desc) (s : State) (q : Nat × Nat × Nat) : State :=
  { s with mem := Memory.put s.mem (d.addr q.1 q.2.1 q.2.2) (sampleValue i s q.1 q.2.1 q.2.2) }

/-- The invariant of the block between two steps. -/
structure State.Inv (s : State) : Prop where
  /-- The parameters are in their legal ranges (R8). -/
  cfgLegal : s.cfg.Legal
  /-- The memory is in canonical form. -/
  memWf : Memory.wf s.mem
  /-- Only addresses of the sample memory are written (R70). -/
  memInside : ∀ p ∈ s.mem, p.1 < s.cfg.memSize
  /-- No command is in progress between two steps (R49, R87). -/
  latchEmpty : s.latch = none
  /-- Nor has one written a part of its destination (R49). -/
  progressEmpty : s.progress = []
  /-- FCODE is 0 exactly where STATE is not FAULT (R40). -/
  fcodeMatches : s.fcode = .none ↔ s.run ≠ .fault
  /-- The address of a command in a run is 4-aligned (R81). -/
  curAligned : s.run = .busy ∨ s.run = .done → s.cur.toNat % 4 = 0

end Sys2Proof.Machine
end

