-- ==== Sys2Proof/Certificates/Slice0/Obligations.lean ====
section
/-! DEFINITION. The statements for the provers, in the order of OBLIGATIONS.json. -/

open Sys2Proof Sys2Proof.Machine

/-! Completion, result and frame of each command. -/

/-- ENCODE completes wherever its checks pass, and writes `penc` of the carrier and the watermark plane (R200, R244). -/
def Obligations.EncodeCompletesAndEmbedsEverySample : Prop :=
  ∀ (m : Method) (a b d : Desc) (s : State), EncodeLegal s.cfg a b d →
    CompletesWith (.encode m a b d) s d fun y x c => penc m (s.sample a y x c) (s.sample b y x 0)

/-- DECODE completes wherever its checks pass, and writes the combined bit of each pixel (R205, R207, R244). -/
def Obligations.DecodeCompletesAndRecoversEveryBit : Prop :=
  ∀ (m : Method) (a b d : Desc) (s : State), DecodeLegal s.cfg a b d →
    CompletesWith (.decode m a b d) s d fun y x _ =>
      combine s.cfg.combine ((List.range a.c).map fun c => pdec m (s.sample a y x c) (s.sample b y x c))

/-- RESIZE completes wherever its checks pass, and takes each sample through the index map (R153, R157, R244). -/
def Obligations.ResizeCompletesAndResamples : Prop :=
  ∀ (a d : Desc) (s : State), ResizeLegal s.cfg a d →
    CompletesWith (.resize a d) s d fun y x _ => s.sample a (nn s.cfg.nnMap y d.h a.h) (nn s.cfg.nnMap x d.w a.w) 0

/-- BINARIZE completes wherever its checks pass, and thresholds every sample (R170, R175, R244). -/
def Obligations.BinarizeCompletesAndThresholds : Prop :=
  ∀ (t : Nat) (a d : Desc) (s : State), BinarizeLegal s.cfg a d →
    CompletesWith (.binarize t a d) s d fun y x c => if t < (s.sample a y x c).toNat then 255#8 else 0#8

/-- EMBED completes wherever its checks pass, and embeds the resampled watermark in every channel (R220, R244). -/
def Obligations.EmbedCompletesAndEmbedsTheResampledWatermark : Prop :=
  ∀ (m : Method) (a b d : Desc) (s : State), EmbedLegal s.cfg a b d →
    CompletesWith (.embed m a b d) s d fun y x c =>
      penc m (s.sample a y x c) (s.sample b (nn s.cfg.nnMap y a.h b.h) (nn s.cfg.nnMap x a.w b.w) 0)

/-- EXTRACT completes wherever its checks pass, and writes the decoded, resampled, binarized bit: 0 or 255
(R225, R172, R244). -/
def Obligations.ExtractCompletesAndRecoversTheBitmap : Prop :=
  ∀ (m : Method) (a b d : Desc) (s : State), ExtractLegal s.cfg a b d →
    CompletesWith (.extract m a b d) s d fun v u _ =>
      if 0 < (combine s.cfg.combine ((List.range a.c).map fun c =>
          pdec m (s.sample a (nn s.cfg.nnMap v d.h a.h) (nn s.cfg.nnMap u d.w a.w) c)
            (s.sample b (nn s.cfg.nnMap v d.h a.h) (nn s.cfg.nnMap u d.w a.w) c))).toNat then 255#8 else 0#8

/-- END, in every state, sets STATE to DONE and keeps every register, every parameter and the memory (R245); no
command is then in progress (R49). -/
def Obligations.EndFinishesTheRun : Prop :=
  ∀ s : State, exec .endRun s = .next { s with run := .done, latch := none, progress := [] }

/-! Faults. -/

/-- ENCODE, DECODE, EMBED and EXTRACT report the first failing check, in the order of R266, and write nothing. -/
def Obligations.TwoSourceCommandsFaultInOrder : Prop :=
  ∀ (m : Method) (a b d : Desc) (s : State),
    FaultsInOrder (exec (.encode m a b d) s) s
      [(¬ a.ChannelsLegal s.cfg ∨ b.c ≠ 1 ∨ ¬ d.ChannelsLegal s.cfg, .badChannels),
       (a.NoDim ∨ b.NoDim ∨ d.NoDim, .badDim),
       (¬ b.SameSize a ∨ ¬ d.SameSize a ∨ d.c ≠ a.c, .shape),
       (a.Outside s.cfg ∨ b.Outside s.cfg ∨ d.Outside s.cfg, .bounds),
       (d.Meets a ∨ d.Meets b, .aliasing)] ∧
    FaultsInOrder (exec (.decode m a b d) s) s
      [(¬ a.ChannelsLegal s.cfg ∨ ¬ b.ChannelsLegal s.cfg ∨ d.c ≠ 1, .badChannels),
       (a.NoDim ∨ b.NoDim ∨ d.NoDim, .badDim),
       (¬ b.SameSize a ∨ b.c ≠ a.c ∨ ¬ d.SameSize a, .shape),
       (a.Outside s.cfg ∨ b.Outside s.cfg ∨ d.Outside s.cfg, .bounds),
       (d.Meets a ∨ d.Meets b, .aliasing)] ∧
    FaultsInOrder (exec (.embed m a b d) s) s
      [(¬ a.ChannelsLegal s.cfg ∨ b.c ≠ 1 ∨ ¬ d.ChannelsLegal s.cfg, .badChannels),
       (a.NoDim ∨ b.NoDim ∨ d.NoDim, .badDim),
       (¬ d.SameSize a ∨ d.c ≠ a.c, .shape),
       (a.Outside s.cfg ∨ b.Outside s.cfg ∨ d.Outside s.cfg, .bounds),
       (d.Meets a ∨ d.Meets b, .aliasing)] ∧
    FaultsInOrder (exec (.extract m a b d) s) s
      [(¬ a.ChannelsLegal s.cfg ∨ ¬ b.ChannelsLegal s.cfg ∨ d.c ≠ 1, .badChannels),
       (a.NoDim ∨ b.NoDim ∨ d.NoDim, .badDim),
       (¬ b.SameSize a ∨ b.c ≠ a.c, .shape),
       (a.Outside s.cfg ∨ b.Outside s.cfg ∨ d.Outside s.cfg, .bounds),
       (d.Meets a ∨ d.Meets b, .aliasing)]

/-- RESIZE and BINARIZE report the first failing check, in the order of R266, and write nothing; RESIZE has no SHAPE
check (R157). -/
def Obligations.OneSourceCommandsFaultInOrder : Prop :=
  ∀ (t : Nat) (a d : Desc) (s : State),
    FaultsInOrder (exec (.resize a d) s) s
      [(a.c ≠ 1 ∨ d.c ≠ 1, .badChannels),
       (a.NoDim ∨ d.NoDim, .badDim),
       (a.Outside s.cfg ∨ d.Outside s.cfg, .bounds),
       (d.Meets a, .aliasing)] ∧
    FaultsInOrder (exec (.binarize t a d) s) s
      [(¬ a.ChannelsLegal s.cfg ∨ ¬ d.ChannelsLegal s.cfg, .badChannels),
       (a.NoDim ∨ d.NoDim, .badDim),
       (¬ d.SameSize a ∨ d.c ≠ a.c, .shape),
       (a.Outside s.cfg ∨ d.Outside s.cfg, .bounds),
       (d.Meets a, .aliasing)]

/-- A fetched command that does not decode faults ILLEGAL_OPCODE, RESERVED or BAD_METHOD, in that order; any other
decodes to an instruction (R121, R116, R119, R120, R266). -/
def Obligations.UndecodableCommandsFaultInOrder : Prop :=
  ∀ s : State, s.inbox = [] → s.run = .busy → s.cur.toNat + 32 ≤ s.cfg.memSize →
    let hdr := s.memRead s.cur.toNat 4
    FaultsInOrder (step s) s
      [(7 ≤ hdr % 16, .illegalOpcode),
       (hdr / 64 % 4 ≠ 0 ∨ hdr / 2 ^ 25 ≠ 0 ∨ s.memRead (s.cur.toNat + 28) 4 ≠ 0, .reserved),
       (hdr % 16 ∈ [1, 2, 5, 6] ∧ hdr / 16 % 4 = 3, .badMethod)] ∧
    (hdr % 16 < 7 → hdr / 64 % 4 = 0 → hdr / 2 ^ 25 = 0 → s.memRead (s.cur.toNat + 28) 4 = 0 →
      ¬ (hdr % 16 ∈ [1, 2, 5, 6] ∧ hdr / 16 % 4 = 3) → ∃ i, step s = exec i s)

/-- A command that does not fit in the memory at CUR faults FETCH, with CUR unchanged (R82; that no command is then in
progress is log 13). -/
def Obligations.FetchOutsideTheMemoryFaults : Prop :=
  ∀ s : State, s.inbox = [] → s.run = .busy → s.cfg.memSize < s.cur.toNat + 32 → step s = .next (s.faulted .fetch)

/-- A step of the sequencer that ends in FAULT writes STATE and FCODE only, with a code that is not NONE; every byte of
memory reads as before (R262, R263; that no command is then in progress is log 13). -/
def Obligations.AFaultWritesNothing : Prop :=
  ∀ s t : State, s.inbox = [] → s.run = .busy → step s = .next t → t.run = .fault →
    t = s.faulted t.fcode ∧ t.fcode ≠ .none ∧ ∀ address, t.byte address = s.byte address

/-! Sequencing. -/

/-- Where the 32 bytes at CUR decode to an instruction, the step is that instruction, run in the state as it stands; a
host that pauses changes only the list of its moves (R241 to R243). -/
def Obligations.AStepRunsTheDecodedCommand : Prop :=
  ∀ (s : State) (i : Instr), s.run = .busy → s.cur.toNat + 32 ≤ s.cfg.memSize →
    (decodeBytes ((List.range 32).map fun k => s.byte (s.cur.toNat + k))).1 = .instr i →
    (s.inbox = [] → step s = exec i s) ∧
    (∀ rest, s.inbox = .pause :: rest → step s = exec i { s with inbox := rest })

/-- Each word of the fetched command is little-endian: byte `j` of word `i` is the byte at CUR + 4*i + j (R73). -/
def Obligations.CommandWordsAreLittleEndian : Prop :=
  ∀ (s : State) (i j : Nat), j < 4 →
    (s.commandWord i).extractLsb' (8 * j) 8 = s.byte (s.cur.toNat + 4 * i + j)

/-- While STATE is not BUSY and no host move is due, a step changes nothing (R262, R265, R302; that a step is then
still taken is the model's choice, log 11). -/
def Obligations.TheSequencerRestsUnlessBusy : Prop :=
  ∀ s : State, s.inbox = [] → s.run ≠ .busy → step s = .next s

/-- A step of a busy sequencer answers a next state: it advances CUR by 32 without wrapping and COUNT by 1, or ends the
run with CUR, COUNT and memory kept (R244, R245, R262, R246). -/
def Obligations.ABusyStepAdvancesOrEndsTheRun : Prop :=
  ∀ s : State, s.cfg.Legal → s.inbox = [] → s.run = .busy →
    ∃ t, step s = .next t ∧
      ((t.run = .busy ∧ t.cur.toNat = s.cur.toNat + 32 ∧ t.cur.toNat ≤ s.cfg.memSize ∧ t.count = s.count + 1#32) ∨
       ((t.run = .done ∨ t.run = .fault) ∧ t.cur = s.cur ∧ t.count = s.count ∧ t.mem = s.mem))

/-- Every run ends, within `(MEM_SIZE - CUR) div 32 + 1` command steps (R246). -/
def Obligations.EveryRunEnds : Prop :=
  ∀ s : State, s.cfg.Legal → s.inbox = [] → s.run = .busy →
    ∃ (n : Nat) (t : State), n ≤ (s.cfg.memSize - s.cur.toNat) / 32 + 1 ∧
      Host.Core.run Sys2Proof.core n s = .next t ∧ t.run ≠ .busy

/-- STATE changes only by END or a fault of a busy sequencer, by START, by CLEAR and by reset (R39, R300): DONE where the
command at CUR fits in memory and is END, FAULT with a fault code (a START that faults ALIGN goes to FAULT in one step,
log 18). -/
def Obligations.StateChangesOnlyAsListed : Prop :=
  ∀ s t : State, step s = .next t → t.run ≠ s.run →
    (s.run = .busy ∧ (s.inbox = [] ∨ ∃ rest, s.inbox = .pause :: rest) ∧
      ((t.run = .done ∧ s.cur.toNat + 32 ≤ s.cfg.memSize ∧ decodeCommand s.fetchCommand = .instr .endRun) ∨
       (t.run = .fault ∧ t.fcode ≠ .none))) ∨
    (∃ v rest, s.inbox = .writeReg 0x04 4 v :: rest ∧ v.getLsbD 0 = true ∧ s.run ≠ .busy ∧
      (t.run = .busy ∨ (t.run = .fault ∧ t.fcode = .align))) ∨
    (∃ v rest, s.inbox = .writeReg 0x04 4 v :: rest ∧ v.getLsbD 0 = false ∧ v.getLsbD 1 = true ∧
      (s.run = .done ∨ s.run = .fault) ∧ t.run = .idle) ∨
    (∃ rest, s.inbox = .reset :: rest ∧ t.run = .idle)

/-- The invariant is kept by every step from every state that meets it, the host's moves and reset among them (that
no command is in progress between two steps is logs 5 and 13). -/
def Obligations.EveryStepKeepsTheInvariant : Prop :=
  ∀ s t : State, s.Inv → step s = .next t → t.Inv

/-- The state after reset meets the invariant, for every legal choice of the parameters. -/
def Obligations.ResetMeetsTheInvariant : Prop :=
  (∀ p : Config, p.Legal → (State.resetOf p).Inv) ∧ State.reset.Inv

/-- No step changes a parameter of the model (log 1). -/
def Obligations.ParametersNeverChange : Prop :=
  ∀ s t : State, step s = .next t → t.cfg = s.cfg

/-! Memory. -/

/-- The samples of an image are exactly the bytes of its region, each once (R13, R75). -/
def Obligations.SamplesTileTheRegion : Prop :=
  ∀ im : Desc,
    (∀ address, im.covers address = true ↔ ∃ y x c, im.Has y x c ∧ im.addr y x c = address) ∧
    (∀ y x c y' x' c', im.Has y x c → im.Has y' x' c' → im.addr y x c = im.addr y' x' c' → y = y' ∧ x = x' ∧ c = c')

/-- `MemRead` reads back what `MemWrite` wrote, modulo its width, and no other byte changes (R72). -/
def Obligations.MemReadReadsBackMemWrite : Prop :=
  ∀ (s : State) (a n v : Nat),
    State.memRead { s with mem := Memory.writeLe s.mem a n v } a n = v % 256 ^ n ∧
    ∀ address, address < a ∨ a + n ≤ address →
      State.byte { s with mem := Memory.writeLe s.mem a n v } address = s.byte address

/-- No command writes a byte of a source it uses (R95). -/
def Obligations.SourcesAreNeverWritten : Prop :=
  ∀ (i : Instr) (s t : State) (x : Desc) (address : Nat), exec i s = .next t → x ∈ i.sources →
    x.covers address = true → t.byte address = s.byte address

/-- A command performed sample by sample, in any order, each sample reading the memory the earlier ones left, leaves the
memory of the atomic command (R87). -/
def Obligations.SampleOrderDoesNotMatter : Prop :=
  ∀ (i : Instr) (d : Desc) (s t : State) (order : List (Nat × Nat × Nat)), Memory.wf s.mem → i.dest = some d →
    exec i s = .next t → t.count = s.count + 1#32 → order.Perm d.coords →
    (order.foldl (writeSample i d) s).mem = t.mem

/-! Encoding. -/

/-- Decoding the bytes of an encoded well-formed instruction gives it back, and consumes exactly 32 bytes. -/
def Obligations.DecodeInvertsEncode : Prop :=
  ∀ (i : Instr) (rest : List Byte), i.wellFormed = true → decodeBytes (encodeBytes i ++ rest) = (.instr i, rest)

/-- Decoding gives only well-formed instructions, and consumes exactly 32 bytes (R110, R113). -/
def Obligations.DecodedInstructionsAreWellFormed : Prop :=
  ∀ (bs rest : List Byte) (i : Instr), decodeBytes bs = (.instr i, rest) →
    i.wellFormed = true ∧ bs.length = rest.length + 32

/-- The ten header words of the spec's table decode to the commands it names (R125). -/
def Obligations.SpecHeaderWordsDecode : Prop :=
  let im (c : Nat) : Desc := { base := 0, h := 0, w := 0, c := c }
  decodeTableWord 256 0x00000000 = some .endRun ∧
  decodeTableWord 256 0x00490011 = some (.encode .bitwiseAdd (im 1) (im 1) (im 1)) ∧
  decodeTableWord 256 0x00490012 = some (.decode .bitwiseAdd (im 1) (im 1) (im 1)) ∧
  decodeTableWord 256 0x00410003 = some (.resize (im 1) (im 1)) ∧
  decodeTableWord 256 0x00417F04 = some (.binarize 127 (im 1) (im 1)) ∧
  decodeTableWord 256 0x00410004 = some (.binarize 0 (im 1) (im 1)) ∧
  decodeTableWord 256 0x00490005 = some (.embed .direct (im 1) (im 1) (im 1)) ∧
  decodeTableWord 256 0x00490006 = some (.extract .direct (im 1) (im 1) (im 1)) ∧
  decodeTableWord 256 0x00CB0021 = some (.encode .negatedBitwiseAdd (im 3) (im 1) (im 3)) ∧
  decodeTableWord 256 0x005B0022 = some (.decode .negatedBitwiseAdd (im 3) (im 3) (im 1))

/-- The fields a command ignores have no effect on its decoding: END ignores all but OPC and the reserved fields, RESIZE
and BINARIZE ignore METH and B, RESIZE and the four method commands ignore THR (R115, R119). The masks are the header
bits the command uses. -/
def Obligations.IgnoredFieldsHaveNoEffect : Prop :=
  ∀ c c' : Command, c.w7 = c'.w7 →
    (c.w0 &&& 0xF#32 = 0x0#32 → c.w0 &&& 0xFE0000CF#32 = c'.w0 &&& 0xFE0000CF#32 →
      decodeCommand c = decodeCommand c') ∧
    (c.w0 &&& 0xF#32 = 0x3#32 → c.w0 &&& 0xFFC700CF#32 = c'.w0 &&& 0xFFC700CF#32 →
      c.w1 = c'.w1 → c.w2 = c'.w2 → c.w5 = c'.w5 → c.w6 = c'.w6 → decodeCommand c = decodeCommand c') ∧
    (c.w0 &&& 0xF#32 = 0x4#32 → c.w0 &&& 0xFFC7FFCF#32 = c'.w0 &&& 0xFFC7FFCF#32 →
      c.w1 = c'.w1 → c.w2 = c'.w2 → c.w5 = c'.w5 → c.w6 = c'.w6 → decodeCommand c = decodeCommand c') ∧
    (c.w0 &&& 0xF#32 ∈ [0x1#32, 0x2#32, 0x5#32, 0x6#32] → c.w0 &&& 0xFFFF00FF#32 = c'.w0 &&& 0xFFFF00FF#32 →
      c.w1 = c'.w1 → c.w2 = c'.w2 → c.w3 = c'.w3 → c.w4 = c'.w4 → c.w5 = c'.w5 → c.w6 = c'.w6 →
      decodeCommand c = decodeCommand c')

/-- The assembler writes, for a line whose operands are in range, a command that decodes to the line's instruction, and
rejects every other instruction (R123). -/
def Obligations.AssembledLinesDecodeBack : Prop :=
  (∀ (l : AsmLine) (i : Instr), l.expand = some i → asmInstrOk i = true →
    ∃ c, assemble l = some c ∧ decodeCommand c = .instr i) ∧
  (∀ i : Instr, asmInstrOk i = false → assemble (.instr i) = none)

/-- An assembled COPY completes wherever RESIZE does, and copies its source (R124). -/
def Obligations.CopyCopiesASingleChannelImage : Prop :=
  ∀ (a d : Desc) (c : Command) (s : State), assemble (.copy d a) = some c → ResizeLegal s.cfg a d →
    ∃ i, decodeCommand c = .instr i ∧ CompletesWith i s d fun y x _ => s.sample a y x 0

/-- With a word placed by `withFetchWord`, the next step runs the instruction the decoder reads from the word (the
model's own way to place a program, log 12). -/
def Obligations.APlacedWordRunsNext : Prop :=
  ∀ (s : State) (nbits w : Nat) (i : Instr), s.cfg.Legal → decodeTableWord nbits w = some i →
    step (s.withFetchWord nbits w) = exec i (s.withFetchWord nbits w)

/-! The datapath. -/

/-- Decoding with the method and carrier of the encoding returns the watermark bit (R198). -/
def Obligations.PixelDecodeInvertsPixelEncode : Prop :=
  ∀ (m : Method) (c w : Byte), pdec m (penc m c w) c = wb w

/-- The encoder changes at most the lowest bit of a carrier sample, so by at most 1 (R199). -/
def Obligations.PixelEncodeChangesOnlyTheLowestBit : Prop :=
  ∀ (m : Method) (c w : Byte),
    penc m c w &&& 0xFE#8 = c &&& 0xFE#8 ∧ (penc m c w ^^^ c) &&& 0xFE#8 = 0#8 ∧
    (penc m c w).toNat ≤ c.toNat + 1 ∧ c.toNat ≤ (penc m c w).toNat + 1

/-- The encoder's output LSB by method, for each value of the carrier's LSB and the watermark bit (R202). -/
def Obligations.PixelEncodeOutputLsbByMethod : Prop :=
  ∀ c w : Byte,
    (lsb c = 0#8 → wb w = 0#8 → lsb (penc .direct c w) = 0#8 ∧ lsb (penc .bitwiseAdd c w) = 0#8 ∧
      lsb (penc .negatedBitwiseAdd c w) = 1#8) ∧
    (lsb c = 0#8 → wb w = 1#8 → lsb (penc .direct c w) = 1#8 ∧ lsb (penc .bitwiseAdd c w) = 1#8 ∧
      lsb (penc .negatedBitwiseAdd c w) = 0#8) ∧
    (lsb c = 1#8 → wb w = 0#8 → lsb (penc .direct c w) = 0#8 ∧ lsb (penc .bitwiseAdd c w) = 1#8 ∧
      lsb (penc .negatedBitwiseAdd c w) = 0#8) ∧
    (lsb c = 1#8 → wb w = 1#8 → lsb (penc .direct c w) = 1#8 ∧ lsb (penc .bitwiseAdd c w) = 0#8 ∧
      lsb (penc .negatedBitwiseAdd c w) = 1#8)

/-- The decoder's output, for each value of the two LSBs (R204). -/
def Obligations.PixelDecodeTruthTable : Prop :=
  ∀ v c : Byte,
    (lsb v = 0#8 → lsb c = 0#8 → pdec .direct v c = 0#8 ∧ pdec .bitwiseAdd v c = 0#8 ∧
      pdec .negatedBitwiseAdd v c = 1#8) ∧
    (lsb v = 0#8 → lsb c = 1#8 → pdec .direct v c = 0#8 ∧ pdec .bitwiseAdd v c = 1#8 ∧
      pdec .negatedBitwiseAdd v c = 0#8) ∧
    (lsb v = 1#8 → lsb c = 0#8 → pdec .direct v c = 1#8 ∧ pdec .bitwiseAdd v c = 1#8 ∧
      pdec .negatedBitwiseAdd v c = 0#8) ∧
    (lsb v = 1#8 → lsb c = 1#8 → pdec .direct v c = 1#8 ∧ pdec .bitwiseAdd v c = 0#8 ∧
      pdec .negatedBitwiseAdd v c = 1#8)

/-- Decoding with another method than the encoder's: what it returns, and where it is wrong (R201). -/
def Obligations.WrongMethodDecoding : Prop :=
  ∀ c w : Byte,
    pdec .direct (penc .bitwiseAdd c w) c = lsb c ^^^ wb w ∧
    (pdec .direct (penc .bitwiseAdd c w) c ≠ wb w ↔ lsb c = 1#8) ∧
    pdec .bitwiseAdd (penc .negatedBitwiseAdd c w) c = 1#8 - wb w ∧
    pdec .bitwiseAdd (penc .negatedBitwiseAdd c w) c ≠ wb w ∧
    pdec .bitwiseAdd (penc .direct c w) c = wb w ^^^ lsb c ∧
    (pdec .bitwiseAdd (penc .direct c w) c ≠ wb w ↔ lsb c = 1#8)

/-- The binarizer: strict threshold, two levels, idempotent for `T` up to 254 and not at 255, a bit to 0 or 255
(R170, R171, R174, R176). -/
def Obligations.BinarizerThreshold : Prop :=
  (∀ (t : Nat) (v : Byte), (t < v.toNat → bin t v = 255#8) ∧ (v.toNat ≤ t → bin t v = 0#8)) ∧
  (∀ (t : Nat) (v : Byte), bin t v = 0#8 ∨ bin t v = 255#8) ∧
  (∀ t : Nat, t ≤ 254 → bin t 0#8 = 0#8 ∧ bin t 255#8 = 255#8) ∧
  (∀ v : Byte, bin 255 v = 0#8) ∧
  bin 0 0#8 = 0#8 ∧ bin 0 1#8 = 255#8

/-- Every index map of the model, the default and every given one, meets the laws of R151: range, identity,
monotone; the result depends on its three arguments alone. -/
def Obligations.IndexMapsMeetTheirLaws : Prop :=
  ∀ k : NnMap,
    (∀ d dn sn : Nat, d < dn → 1 ≤ sn → nn k d dn sn < sn) ∧
    (∀ d n : Nat, d < n → nn k d n n = d) ∧
    (∀ d1 d2 dn sn : Nat, d1 ≤ d2 → d2 < dn → 1 ≤ sn → nn k d1 dn sn ≤ nn k d2 dn sn)

/-- The default index map at integer ratios (R152). -/
def Obligations.DefaultIndexMapAtIntegerRatios : Prop :=
  ∀ k d n : Nat, 1 ≤ k → 1 ≤ n →
    (d < k * n → nn .floorMap d (k * n) n = d / k) ∧ (d < n → nn .floorMap d n (k * n) = d * k)

/-- Every channel combination of the model, the default and every given one, meets the laws of R197: a bit,
unanimity; and for one channel it is that channel's bit. -/
def Obligations.CombinationsMeetTheirLaws : Prop :=
  ∀ (k : Combine) (bits : List Byte), bits ≠ [] → (∀ b ∈ bits, b = 0#8 ∨ b = 1#8) →
    (combine k bits = 0#8 ∨ combine k bits = 1#8) ∧
    (∀ b, (∀ b' ∈ bits, b' = b) → combine k bits = b) ∧
    (∀ b, bits = [b] → combine k bits = b)

/-! Laws of the commands. -/

/-- EMBED and ENCODE change at most the lowest bit of every sample (R232). -/
def Obligations.EmbeddingPerturbsOnlyTheLowestBit : Prop :=
  ∀ (m : Method) (a b d : Desc) (s : State),
    (EmbedLegal s.cfg a b d → ∃ t, exec (.embed m a b d) s = .next t ∧
      ∀ y x c, d.Has y x c → (t.sample d y x c ^^^ s.sample a y x c) &&& 0xFE#8 = 0#8) ∧
    (EncodeLegal s.cfg a b d → ∃ t, exec (.encode m a b d) s = .next t ∧
      ∀ y x c, d.Has y x c → (t.sample d y x c ^^^ s.sample a y x c) &&& 0xFE#8 = 0#8)

/-- ENCODE then DECODE with the same method and carrier returns the watermark bit at every pixel, for every channel count
and every combination (R208). -/
def Obligations.PlaneRoundTrip : Prop :=
  ∀ (m : Method) (a b d e : Desc) (s : State), EncodeLegal s.cfg a b d → DecodeLegal s.cfg d a e →
    ∃ t u, exec (.encode m a b d) s = .next t ∧ exec (.decode m d a e) t = .next u ∧
      ∀ y x, y < a.h → x < a.w → u.sample e y x 0 = wb (s.sample b y x 0)

/-- EMBED then EXTRACT with the same method and carrier returns the watermark resampled to the carrier's size and back,
for every index map and combination; with a binary watermark, its samples themselves (R230). -/
def Obligations.EmbedExtractRoundTrip : Prop :=
  ∀ (m : Method) (a b d e : Desc) (s : State), EmbedLegal s.cfg a b d → ExtractLegal s.cfg d a e → e.SameSize b →
    ∃ t u, exec (.embed m a b d) s = .next t ∧ exec (.extract m d a e) t = .next u ∧
      (∀ v x, v < b.h → x < b.w → u.sample e v x 0 =
        bin 0 (wb (s.sample b (nn s.cfg.nnMap (nn s.cfg.nnMap v b.h a.h) a.h b.h)
          (nn s.cfg.nnMap (nn s.cfg.nnMap x b.w a.w) a.w b.w) 0))) ∧
      ((∀ v x, v < b.h → x < b.w → s.sample b v x 0 = 0#8 ∨ s.sample b v x 0 = 255#8) →
        ∀ v x, v < b.h → x < b.w → u.sample e v x 0 =
          s.sample b (nn s.cfg.nnMap (nn s.cfg.nnMap v b.h a.h) a.h b.h)
            (nn s.cfg.nnMap (nn s.cfg.nnMap x b.w a.w) a.w b.w) 0)

/-- With the default index map and a carrier that is an integer multiple of a binary watermark on each axis, EMBED then
EXTRACT recovers the watermark exactly (R231). -/
def Obligations.ExactRecoveryAtIntegerRatios : Prop :=
  ∀ (m : Method) (a b d e : Desc) (s : State) (k l : Nat), s.cfg.nnMap = .floorMap →
    EmbedLegal s.cfg a b d → ExtractLegal s.cfg d a e → e.SameSize b → 1 ≤ k → 1 ≤ l → a.h = k * b.h → a.w = l * b.w →
    (∀ v x, v < b.h → x < b.w → s.sample b v x 0 = 0#8 ∨ s.sample b v x 0 = 255#8) →
    ∃ t u, exec (.embed m a b d) s = .next t ∧ exec (.extract m d a e) t = .next u ∧
      ∀ v x, v < b.h → x < b.w → u.sample e v x 0 = s.sample b v x 0

/-- EMBED writes the same destination as RESIZE into a scratch plane followed by ENCODE; the pair also writes the
scratch, and neither writes anything else (R221). -/
def Obligations.EmbedEqualsResizeThenEncode : Prop :=
  ∀ (m : Method) (a b d p : Desc) (s : State), EmbedLegal s.cfg a b d → p.SameSize a → p.c = 1 → p.Fits s.cfg →
    p.Apart a → p.Apart b → p.Apart d →
    ∃ t1 t2 u, exec (.resize b p) s = .next t1 ∧ exec (.encode m a p d) t1 = .next t2 ∧
      exec (.embed m a b d) s = .next u ∧
      (∀ address, d.covers address = true → t2.byte address = u.byte address) ∧
      (∀ address, d.covers address = false → u.byte address = s.byte address) ∧
      (∀ address, d.covers address = false → p.covers address = false → t2.byte address = s.byte address)

/-- EXTRACT writes the same destination as DECODE, RESIZE and BINARIZE #0 through two scratch planes (R226). -/
def Obligations.ExtractEqualsItsPrimitives : Prop :=
  ∀ (m : Method) (a b d f g : Desc) (s : State), ExtractLegal s.cfg a b d →
    f.SameSize a → f.c = 1 → f.Fits s.cfg → f.Apart a → f.Apart b → f.Apart d →
    g.SameSize d → g.c = 1 → g.Fits s.cfg → g.Apart a → g.Apart b → g.Apart d → g.Apart f →
    ∃ t1 t2 t3 u, exec (.decode m a b f) s = .next t1 ∧ exec (.resize f g) t1 = .next t2 ∧
      exec (.binarize 0 g d) t2 = .next t3 ∧ exec (.extract m a b d) s = .next u ∧
      ∀ address, d.covers address = true → t3.byte address = u.byte address

/-! The host's side. -/

/-- A register read returns its register: the ID constant, CTRL as IE in bit 2 and every other bit 0, STATUS, CMDPTR, CUR
and COUNT; it changes nothing else (R33 to R43; what the read returned stands in `busData`, log 14). -/
def Obligations.RegisterReadsReturnTheirRegister : Prop :=
  ∀ (s : State) (rest : List HostMove) (q : Nat × Word),
    q ∈ [(0x00, 0x4C534231#32), (0x04, if s.ie then 4#32 else 0#32),
         (0x08, BitVec.ofNat 32 (s.run.code + 256 * s.fcode.code)), (0x0C, s.cmdptr), (0x10, s.cur), (0x14, s.count)] →
    step { s with inbox := .readReg q.1 4 :: rest } = .next { s with inbox := rest, busData := some q.2 }

/-- Offsets 0x18 to 0x3C read 0, and a write there has no effect (R44). -/
def Obligations.ReservedOffsetsReadZeroAndIgnoreWrites : Prop :=
  ∀ (s : State) (rest : List HostMove) (offset : Nat) (v : Word), 0x18 ≤ offset → offset ≤ 0x3C → offset % 4 = 0 →
    step { s with inbox := .readReg offset 4 :: rest } = .next { s with inbox := rest, busData := some 0#32 } ∧
    step { s with inbox := .writeReg offset 4 v :: rest } = .next { s with inbox := rest }

/-- ID, STATUS, CUR and COUNT ignore writes; CMDPTR keeps every bit written, in every state, and nothing else changes
(R34, R38, R41, R42, R43). -/
def Obligations.RegisterWritesReachOnlyCmdptr : Prop :=
  ∀ (s : State) (rest : List HostMove) (v : Word),
    (∀ offset ∈ [0x00, 0x08, 0x10, 0x14],
      step { s with inbox := .writeReg offset 4 v :: rest } = .next { s with inbox := rest }) ∧
    step { s with inbox := .writeReg 0x0C 4 v :: rest } = .next { s with inbox := rest, cmdptr := v }

/-- A write of CTRL: IE from bit 2 first, in every state; START on bit 0, without effect on a run in progress; CLEAR on
bit 1 only where bit 0 is 0 (R36, R240, R275). That a START on a misaligned CMDPTR reaches FAULT in the same step is
log 18; that CLEAR keeps CUR and COUNT, as R275 says against a remark of R323, is log 19; `startMem`, `latch` and
`progress` are logs 7 and 13. -/
def Obligations.ControlWriteActsInOrder : Prop :=
  ∀ (s : State) (rest : List HostMove) (v : Word),
    let o := step { s with inbox := .writeReg 0x04 4 v :: rest }
    let s1 : State := { s with inbox := rest, ie := v.getLsbD 2 }
    (v.getLsbD 0 = true → s.run = .busy → o = .next s1) ∧
    (v.getLsbD 0 = true → s.run ≠ .busy → s.cmdptr.toNat % 4 = 0 →
      o = .next { s1 with run := .busy, fcode := .none, count := 0#32, cur := s.cmdptr, startMem := s.mem }) ∧
    (v.getLsbD 0 = true → s.run ≠ .busy → s.cmdptr.toNat % 4 ≠ 0 →
      o = .next { s1 with run := .fault, fcode := .align, count := 0#32, cur := s.cmdptr, startMem := s.mem,
                          latch := none, progress := [] }) ∧
    (v.getLsbD 0 = false → v.getLsbD 1 = true → s.run = .done ∨ s.run = .fault →
      o = .next { s1 with run := .idle, fcode := .none }) ∧
    (v.getLsbD 0 = false → ¬ (v.getLsbD 1 = true ∧ (s.run = .done ∨ s.run = .fault)) → o = .next s1)

/-- The interrupt line is IE and a finished run; it is 0 after reset, and falls when the host clears IE or clears a
finished run (R47, R268). -/
def Obligations.InterruptLineFollowsItsRule : Prop :=
  (∀ s : State, s.irq = true ↔ s.ie = true ∧ (s.run = .done ∨ s.run = .fault)) ∧
  (∀ p : Config, (State.resetOf p).irq = false) ∧
  (∀ (s t : State) (rest : List HostMove) (v : Word),
    step { s with inbox := .writeReg 0x04 4 v :: rest } = .next t →
    v.getLsbD 2 = false ∨ (v.getLsbD 0 = false ∧ v.getLsbD 1 = true) → t.irq = false)

/-- Reset, in every state, gives every register, field and line its value of R50; the memory is not written unless a
command was in progress (R50, R301; that bytes a command wrote are kept too is log 21). -/
def Obligations.ResetGivesEveryRegisterItsValue : Prop :=
  ∀ (s : State) (rest : List HostMove), ∃ t, step { s with inbox := .reset :: rest } = .next t ∧
    t.readReg 0x00 = 0x4C534231#32 ∧ t.ie = false ∧ t.run = .idle ∧ t.fcode = .none ∧ t.cmdptr = 0#32 ∧
    t.cur = 0#32 ∧ t.count = 0#32 ∧ t.irq = false ∧ t.latch = none ∧ t.progress = [] ∧
    (s.run ≠ .busy → t.mem = s.mem)

/-- Reset during a run: each byte holds its old value, or, in the destination of the command in progress, the value that
command would write (R300). -/
def Obligations.ResetTearsOnlyTheCommandInProgress : Prop :=
  ∀ (s t : State) (rest : List HostMove) (address : Nat), step { s with inbox := .reset :: rest } = .next t →
    t.byte address = s.byte address ∨
    ∃ i d u, s.run = .busy ∧ decodeCommand s.fetchCommand = .instr i ∧ i.dest = some d ∧
      d.covers address = true ∧ exec i { s with inbox := rest } = .next u ∧ u.count = s.count + 1#32 ∧
      t.byte address = u.byte address

/-- The model gives the host no register access that is not one aligned 32-bit word inside the window, and no memory
write during a run (R45, R321). -/
def Obligations.UndefinedHostMovesAreRefused : Prop :=
  ∀ (s : State) (rest : List HostMove),
    (∀ offset width, width ≠ 4 ∨ offset % 4 ≠ 0 ∨ 0x40 ≤ offset →
      step { s with inbox := .readReg offset width :: rest } = .refused (.registerAccess offset width) ∧
      ∀ v, step { s with inbox := .writeReg offset width v :: rest } = .refused (.registerAccess offset width)) ∧
    (s.run = .busy → ∀ address v,
      step { s with inbox := .writeMem address v :: rest } = .refused (.writeWhileBusy address))

/-- While no run is in progress, a host write to a byte of the memory is what the host then reads there, and every other
byte reads as before; the write changes memory alone, and the read only what the host got back (R320, R42; what a read
returned stands in `busData`, log 14). -/
def Obligations.HostReadsWhatItLastWrote : Prop :=
  ∀ (s : State) (rest : List HostMove) (address : Nat) (v : Byte), s.run ≠ .busy → address < s.cfg.memSize →
    ∃ m, step { s with inbox := .writeMem address v :: .readMem address :: rest } =
        .next { s with inbox := .readMem address :: rest, mem := m } ∧
      step { s with inbox := .readMem address :: rest, mem := m } =
        .next { s with inbox := rest, mem := m, busData := some (v.setWidth 32), draws := s.draws + 1 } ∧
      State.byte { s with mem := m } address = v ∧
      ∀ other, other ≠ address → State.byte { s with mem := m } other = s.byte other

/-- A host read during a run: the current value of a byte the run does not write; for a byte it writes, the value as
START found it or a value the run writes there (R88; the old value is log 7; `RunValuesAreWhatTheRunWrites` says which
values `runValues` holds). -/
def Obligations.HostReadsDuringARunAreBounded : Prop :=
  ∀ (s : State) (rest : List HostMove) (address : Nat), address < s.cfg.memSize →
    let s1 : State := { s with inbox := rest }
    ∃ b : Byte, step { s with inbox := .readMem address :: rest } =
        .next { s1 with busData := some (b.setWidth 32), draws := s.draws + 1 } ∧
      (s.run ≠ .busy → b = s.byte address) ∧
      (s.run = .busy → s1.runValues address = [] → b = s.byte address) ∧
      (s.run = .busy → s1.runValues address ≠ [] → b = s1.runBegin.byte address ∨ b ∈ s1.runValues address)

/-- A read of STATUS shows STATE and FCODE by the numbers of the spec: STATE in bits 1:0, FCODE in bits 11:8, every other
bit 0 (R38, R39, R261). -/
def Obligations.StatusShowsTheCodesOfTheSpec : Prop :=
  ∀ (s : State) (rest : List HostMove) (stateCode faultCode : Nat),
    (s.run, stateCode) ∈ [(RunState.idle, 0), (.busy, 1), (.done, 2), (.fault, 3)] →
    (s.fcode, faultCode) ∈ [(FCode.none, 0), (.illegalOpcode, 1), (.reserved, 2), (.badMethod, 3), (.badChannels, 4),
      (.badDim, 5), (.shape, 6), (.bounds, 7), (.aliasing, 8), (.fetch, 9), (.align, 10)] →
    step { s with inbox := .readReg 0x08 4 :: rest } =
      .next { s with inbox := rest, busData := some (BitVec.ofNat 32 (stateCode + 256 * faultCode)) }

/-- In a state `s` of a run that began in `s0`, whatever the host has done since to the fields a host reaches during a
run, `runValues` holds for each address exactly the values that the data commands of the run, earlier and later ones,
write there (R88). The run is the model's: `startMem` is log 7, the list of moves log 6. -/
def Obligations.RunValuesAreWhatTheRunWrites : Prop :=
  ∀ (s0 s : State) (n : Nat), s0.Inv → s0.inbox = [] → s0.run = .busy → s0.count = 0#32 → s0.startMem = s0.mem →
    Host.Core.run Sys2Proof.core n s0 = .next s → s.run = .busy →
    ∀ (ie : Bool) (ptr : Word) (moves : List HostMove) (data : Option Word) (draws address : Nat) (b : Byte),
      b ∈ State.runValues { s with ie := ie, cmdptr := ptr, inbox := moves, busData := data, draws := draws } address ↔
        ∃ (k : Nat) (u t : State) (i : Instr) (d : Desc), Host.Core.run Sys2Proof.core k s0 = .next u ∧
          u.run = .busy ∧ decodeCommand u.fetchCommand = .instr i ∧ i.dest = some d ∧ step u = .next t ∧
          t.run = .busy ∧ d.covers address = true ∧ b = t.byte address

/-- Every function that meets R151 can be given as NN_MAP, and every function that meets R197 as COMBINE: the model then
computes that function, on all extents and channel counts it was given for (R8; 65535 and 7 are all of them, R112, R113).
That the parameters stand in State as tables is log 4. -/
def Obligations.EveryLawfulParameterCanBeGiven : Prop :=
  (∀ (f : (d dn sn : Nat) → Nat) (extent : Nat),
    (∀ d dn sn, d < dn → 1 ≤ sn → f d dn sn < sn) → (∀ d n, d < n → f d n n = d) →
    (∀ d1 d2 dn sn, d1 ≤ d2 → d2 < dn → 1 ≤ sn → f d1 dn sn ≤ f d2 dn sn) →
    ∀ d dn sn, d < dn → dn ≤ extent → 1 ≤ sn → sn ≤ extent →
      nn (NnMap.ofFunction extent f) d dn sn = f d dn sn) ∧
  (∀ (f : List Byte → Byte) (channels : Nat),
    (∀ bits, bits ≠ [] → (∀ b ∈ bits, b = 0#8 ∨ b = 1#8) →
      (f bits = 0#8 ∨ f bits = 1#8) ∧ ∀ k, (∀ b ∈ bits, b = k) → f bits = k) →
    ∀ bits, bits ≠ [] → (∀ b ∈ bits, b = 0#8 ∨ b = 1#8) → bits.length ≤ channels →
      Machine.combine (Combine.ofFunction channels f) bits = f bits)
end

