-- ==== Sys2Proof/Laws/State.lean ====
section
/-! SUPPORT. One lemma per field per update of the state. -/

namespace Sys2Proof.Machine.State

section
variable (s : State) (code : FCode)
@[simp] theorem raiseFault_cfg : (s.raiseFault code).cfg = s.cfg := rfl
@[simp] theorem raiseFault_ie : (s.raiseFault code).ie = s.ie := rfl
@[simp] theorem raiseFault_run : (s.raiseFault code).run = .fault := rfl
@[simp] theorem raiseFault_fcode : (s.raiseFault code).fcode = code := rfl
@[simp] theorem raiseFault_cmdptr : (s.raiseFault code).cmdptr = s.cmdptr := rfl
@[simp] theorem raiseFault_cur : (s.raiseFault code).cur = s.cur := rfl
@[simp] theorem raiseFault_count : (s.raiseFault code).count = s.count := rfl
@[simp] theorem raiseFault_mem : (s.raiseFault code).mem = s.mem := rfl
@[simp] theorem raiseFault_latch : (s.raiseFault code).latch = none := rfl
@[simp] theorem raiseFault_progress : (s.raiseFault code).progress = [] := rfl
@[simp] theorem raiseFault_startMem : (s.raiseFault code).startMem = s.startMem := rfl
@[simp] theorem raiseFault_inbox : (s.raiseFault code).inbox = s.inbox := rfl
@[simp] theorem raiseFault_busData : (s.raiseFault code).busData = s.busData := rfl
@[simp] theorem raiseFault_draws : (s.raiseFault code).draws = s.draws := rfl
end

section
variable (s : State)
@[simp] theorem latchCommand_cfg : s.latchCommand.cfg = s.cfg := rfl
@[simp] theorem latchCommand_ie : s.latchCommand.ie = s.ie := rfl
@[simp] theorem latchCommand_run : s.latchCommand.run = s.run := rfl
@[simp] theorem latchCommand_fcode : s.latchCommand.fcode = s.fcode := rfl
@[simp] theorem latchCommand_cmdptr : s.latchCommand.cmdptr = s.cmdptr := rfl
@[simp] theorem latchCommand_cur : s.latchCommand.cur = s.cur := rfl
@[simp] theorem latchCommand_count : s.latchCommand.count = s.count := rfl
@[simp] theorem latchCommand_mem : s.latchCommand.mem = s.mem := rfl
@[simp] theorem latchCommand_latch : s.latchCommand.latch = some s.fetchCommand := rfl
@[simp] theorem latchCommand_progress : s.latchCommand.progress = s.progress := rfl
@[simp] theorem latchCommand_startMem : s.latchCommand.startMem = s.startMem := rfl
@[simp] theorem latchCommand_inbox : s.latchCommand.inbox = s.inbox := rfl
@[simp] theorem latchCommand_busData : s.latchCommand.busData = s.busData := rfl
@[simp] theorem latchCommand_draws : s.latchCommand.draws = s.draws := rfl
end

section
variable (s : State)
@[simp] theorem beginRun_cfg : s.beginRun.cfg = s.cfg := rfl
@[simp] theorem beginRun_ie : s.beginRun.ie = s.ie := rfl
@[simp] theorem beginRun_run : s.beginRun.run = .busy := rfl
@[simp] theorem beginRun_fcode : s.beginRun.fcode = .none := rfl
@[simp] theorem beginRun_cmdptr : s.beginRun.cmdptr = s.cmdptr := rfl
@[simp] theorem beginRun_cur : s.beginRun.cur = s.cmdptr := rfl
@[simp] theorem beginRun_count : s.beginRun.count = 0#32 := rfl
@[simp] theorem beginRun_mem : s.beginRun.mem = s.mem := rfl
@[simp] theorem beginRun_latch : s.beginRun.latch = s.latch := rfl
@[simp] theorem beginRun_progress : s.beginRun.progress = s.progress := rfl
@[simp] theorem beginRun_startMem : s.beginRun.startMem = s.mem := rfl
@[simp] theorem beginRun_inbox : s.beginRun.inbox = s.inbox := rfl
@[simp] theorem beginRun_busData : s.beginRun.busData = s.busData := rfl
@[simp] theorem beginRun_draws : s.beginRun.draws = s.draws := rfl
end

section
variable (s : State) (cells : List Host.Cell)
@[simp] theorem store_cfg : (s.store cells).cfg = s.cfg := rfl
@[simp] theorem store_ie : (s.store cells).ie = s.ie := rfl
@[simp] theorem store_run : (s.store cells).run = s.run := rfl
@[simp] theorem store_fcode : (s.store cells).fcode = s.fcode := rfl
@[simp] theorem store_cmdptr : (s.store cells).cmdptr = s.cmdptr := rfl
@[simp] theorem store_cur : (s.store cells).cur = s.cur := rfl
@[simp] theorem store_count : (s.store cells).count = s.count := rfl
@[simp] theorem store_mem : (s.store cells).mem = Memory.putAll s.mem cells := rfl
@[simp] theorem store_latch : (s.store cells).latch = s.latch := rfl
@[simp] theorem store_progress : (s.store cells).progress = cells.map Prod.fst := rfl
@[simp] theorem store_startMem : (s.store cells).startMem = s.startMem := rfl
@[simp] theorem store_inbox : (s.store cells).inbox = s.inbox := rfl
@[simp] theorem store_busData : (s.store cells).busData = s.busData := rfl
@[simp] theorem store_draws : (s.store cells).draws = s.draws := rfl
end

section
variable (s : State)
@[simp] theorem complete_cfg : s.complete.cfg = s.cfg := rfl
@[simp] theorem complete_ie : s.complete.ie = s.ie := rfl
@[simp] theorem complete_run : s.complete.run = s.run := rfl
@[simp] theorem complete_fcode : s.complete.fcode = s.fcode := rfl
@[simp] theorem complete_cmdptr : s.complete.cmdptr = s.cmdptr := rfl
@[simp] theorem complete_cur : s.complete.cur = s.cur + 32#32 := rfl
@[simp] theorem complete_count : s.complete.count = s.count + 1#32 := rfl
@[simp] theorem complete_mem : s.complete.mem = s.mem := rfl
@[simp] theorem complete_latch : s.complete.latch = none := rfl
@[simp] theorem complete_progress : s.complete.progress = [] := rfl
@[simp] theorem complete_startMem : s.complete.startMem = s.startMem := rfl
@[simp] theorem complete_inbox : s.complete.inbox = s.inbox := rfl
@[simp] theorem complete_busData : s.complete.busData = s.busData := rfl
@[simp] theorem complete_draws : s.complete.draws = s.draws := rfl
end

section
variable (s : State)
@[simp] theorem finish_cfg : s.finish.cfg = s.cfg := rfl
@[simp] theorem finish_ie : s.finish.ie = s.ie := rfl
@[simp] theorem finish_run : s.finish.run = .done := rfl
@[simp] theorem finish_fcode : s.finish.fcode = s.fcode := rfl
@[simp] theorem finish_cmdptr : s.finish.cmdptr = s.cmdptr := rfl
@[simp] theorem finish_cur : s.finish.cur = s.cur := rfl
@[simp] theorem finish_count : s.finish.count = s.count := rfl
@[simp] theorem finish_mem : s.finish.mem = s.mem := rfl
@[simp] theorem finish_latch : s.finish.latch = none := rfl
@[simp] theorem finish_progress : s.finish.progress = [] := rfl
@[simp] theorem finish_startMem : s.finish.startMem = s.startMem := rfl
@[simp] theorem finish_inbox : s.finish.inbox = s.inbox := rfl
@[simp] theorem finish_busData : s.finish.busData = s.busData := rfl
@[simp] theorem finish_draws : s.finish.draws = s.draws := rfl
end

section
variable (s : State) (m : Memory)
@[simp] theorem completed_cfg : (s.completed m).cfg = s.cfg := rfl
@[simp] theorem completed_ie : (s.completed m).ie = s.ie := rfl
@[simp] theorem completed_run : (s.completed m).run = s.run := rfl
@[simp] theorem completed_fcode : (s.completed m).fcode = s.fcode := rfl
@[simp] theorem completed_cmdptr : (s.completed m).cmdptr = s.cmdptr := rfl
@[simp] theorem completed_cur : (s.completed m).cur = s.cur + 32#32 := rfl
@[simp] theorem completed_count : (s.completed m).count = s.count + 1#32 := rfl
@[simp] theorem completed_mem : (s.completed m).mem = m := rfl
@[simp] theorem completed_latch : (s.completed m).latch = none := rfl
@[simp] theorem completed_progress : (s.completed m).progress = [] := rfl
@[simp] theorem completed_startMem : (s.completed m).startMem = s.startMem := rfl
@[simp] theorem completed_inbox : (s.completed m).inbox = s.inbox := rfl
@[simp] theorem completed_busData : (s.completed m).busData = s.busData := rfl
@[simp] theorem completed_draws : (s.completed m).draws = s.draws := rfl
end

section
variable (s : State)
@[simp] theorem hostReset_cfg : s.hostReset.cfg = s.cfg := rfl
@[simp] theorem hostReset_ie : s.hostReset.ie = false := rfl
@[simp] theorem hostReset_run : s.hostReset.run = .idle := rfl
@[simp] theorem hostReset_fcode : s.hostReset.fcode = .none := rfl
@[simp] theorem hostReset_cmdptr : s.hostReset.cmdptr = 0#32 := rfl
@[simp] theorem hostReset_cur : s.hostReset.cur = 0#32 := rfl
@[simp] theorem hostReset_count : s.hostReset.count = 0#32 := rfl
@[simp] theorem hostReset_mem : s.hostReset.mem = s.tornMem := rfl
@[simp] theorem hostReset_latch : s.hostReset.latch = none := rfl
@[simp] theorem hostReset_progress : s.hostReset.progress = [] := rfl
@[simp] theorem hostReset_startMem : s.hostReset.startMem = [] := rfl
@[simp] theorem hostReset_inbox : s.hostReset.inbox = s.inbox := rfl
@[simp] theorem hostReset_busData : s.hostReset.busData = none := rfl
@[simp] theorem hostReset_draws : s.hostReset.draws = s.draws + 1 := rfl
end

section
variable (s : State) (nbits w : Nat)
@[simp] theorem placeCommand_cfg : (s.placeCommand nbits w).cfg = s.cfg := rfl
@[simp] theorem placeCommand_ie : (s.placeCommand nbits w).ie = s.ie := rfl
@[simp] theorem placeCommand_run : (s.placeCommand nbits w).run = .busy := rfl
@[simp] theorem placeCommand_fcode : (s.placeCommand nbits w).fcode = .none := rfl
@[simp] theorem placeCommand_cmdptr : (s.placeCommand nbits w).cmdptr = s.cmdptr := rfl
@[simp] theorem placeCommand_cur : (s.placeCommand nbits w).cur = s.placeAddress := rfl
@[simp] theorem placeCommand_count : (s.placeCommand nbits w).count = s.count := rfl
@[simp] theorem placeCommand_mem : (s.placeCommand nbits w).mem = Memory.writeLe s.mem s.placeAddress.toNat 32 (w % 2 ^ nbits) := by
  simp only [State.placeCommand]
@[simp] theorem placeCommand_latch : (s.placeCommand nbits w).latch = s.latch := rfl
@[simp] theorem placeCommand_progress : (s.placeCommand nbits w).progress = s.progress := rfl
@[simp] theorem placeCommand_startMem : (s.placeCommand nbits w).startMem = s.startMem := rfl
@[simp] theorem placeCommand_inbox : (s.placeCommand nbits w).inbox = [] := rfl
@[simp] theorem placeCommand_busData : (s.placeCommand nbits w).busData = s.busData := rfl
@[simp] theorem placeCommand_draws : (s.placeCommand nbits w).draws = s.draws := rfl
end

/-- A stored and completed command leaves the completed state of its memory. -/
theorem store_complete (s : State) (cells : List Host.Cell) :
    (s.store cells).complete = s.completed (Memory.putAll s.mem cells) := rfl

theorem raiseFault_eq_faulted (s : State) (code : FCode) : s.raiseFault code = s.faulted code := rfl

/-- The latch is not looked at by an operation that ends the command. -/
@[simp] theorem latchCommand_raiseFault (s : State) (code : FCode) :
    s.latchCommand.raiseFault code = s.raiseFault code := rfl

@[simp] theorem latchCommand_finish (s : State) : s.latchCommand.finish = s.finish := rfl

@[simp] theorem latchCommand_completed (s : State) (m : Memory) :
    s.latchCommand.completed m = s.completed m := rfl

@[simp] theorem latchCommand_byte (s : State) (a : Nat) : s.latchCommand.byte a = s.byte a := rfl

@[simp] theorem latchCommand_sample (s : State) (im : Desc) (y x c : Nat) :
    s.latchCommand.sample im y x c = s.sample im y x c := rfl

@[simp] theorem resetOf_cfg (p : Config) : (State.resetOf p).cfg = p := rfl
@[simp] theorem resetOf_mem (p : Config) : (State.resetOf p).mem = [] := rfl
@[simp] theorem resetOf_run (p : Config) : (State.resetOf p).run = .idle := rfl
@[simp] theorem resetOf_inbox (p : Config) : (State.resetOf p).inbox = [] := rfl

end Sys2Proof.Machine.State
end

