-- ==== Sys2Proof/Laws/Memory.lean ====
section
/-! SUPPORT. The sample memory: read after write, writes elsewhere, and the canonical form kept by every operation. -/

namespace Sys2Proof.Machine

theorem Memory.look_put_same (m : Memory) (a : Nat) (b : Byte) : Memory.look (Memory.put m a b) a = some b := by
  induction m with
  | nil => simp [Memory.put, Memory.look]
  | cons p m ih =>
    obtain ⟨k, v⟩ := p
    by_cases h1 : a < k
    · simp [Memory.put, Memory.look, h1]
    · by_cases h2 : a = k
      · simp [Memory.put, Memory.look, h2]
      · simp [Memory.put, Memory.look, h1, h2, Ne.symm h2, ih]

theorem Memory.look_put_other (m : Memory) {a x : Nat} (b : Byte) (h : x ≠ a) :
    Memory.look (Memory.put m a b) x = Memory.look m x := by
  induction m with
  | nil => simp [Memory.put, Memory.look, Ne.symm h]
  | cons p m ih =>
    obtain ⟨k, v⟩ := p
    by_cases h1 : a < k
    · simp [Memory.put, Memory.look, h1, Ne.symm h]
    · by_cases h2 : a = k
      · subst h2; simp [Memory.put, Memory.look, Ne.symm h]
      · simp only [Memory.put, h1, h2, if_false, Memory.look, ih]

/-- Reading one byte after writing one. -/
theorem Memory.look_put (m : Memory) (a x : Nat) (b : Byte) :
    Memory.look (Memory.put m a b) x = if x = a then some b else Memory.look m x := by
  by_cases h : x = a
  · subst h; simp [Memory.look_put_same]
  · simp [h, Memory.look_put_other m b h]

/-- The addresses of a written memory are the old ones and the new one. -/
theorem Memory.mem_put {m : Memory} {a : Nat} {b : Byte} {p : Host.Cell} (h : p ∈ Memory.put m a b) :
    p = (a, b) ∨ p ∈ m := by
  induction m with
  | nil => simpa [Memory.put] using h
  | cons q m ih =>
    obtain ⟨k, v⟩ := q
    simp only [Memory.put] at h
    split at h
    · simpa using h
    · split at h
      · rcases List.mem_cons.1 h with h | h <;> simp [h]
      · rcases List.mem_cons.1 h with h | h
        · simp [h]
        · rcases ih h with h | h <;> simp [h]

/-- A write keeps the canonical form. -/
theorem Memory.put_wf {m : Memory} (h : Memory.wf m) (a : Nat) (b : Byte) : Memory.wf (Memory.put m a b) := by
  induction m with
  | nil => simp [Memory.put, Memory.wf]
  | cons p m ih =>
    obtain ⟨k, v⟩ := p
    obtain ⟨hk, hm⟩ := List.pairwise_cons.1 h
    simp only [Memory.put]
    split
    · rename_i h1
      refine List.pairwise_cons.2 ⟨fun q hq => ?_, h⟩
      rcases List.mem_cons.1 hq with rfl | hq
      · exact h1
      · exact Nat.lt_trans h1 (hk q hq)
    · split
      · rename_i h2
        subst h2
        exact List.pairwise_cons.2 ⟨hk, hm⟩
      · refine List.pairwise_cons.2 ⟨fun q hq => ?_, ih hm⟩
        rcases Memory.mem_put hq with rfl | hq
        · show k < a
          omega
        · exact hk q hq

theorem Memory.putAll_nil (m : Memory) : Memory.putAll m [] = m := rfl

theorem Memory.putAll_cons (m : Memory) (p : Host.Cell) (cells : List Host.Cell) :
    Memory.putAll m (p :: cells) = Memory.putAll (Memory.put m p.1 p.2) cells := rfl

/-- A list of writes keeps the canonical form. -/
theorem Memory.putAll_wf {m : Memory} (h : Memory.wf m) (cells : List Host.Cell) :
    Memory.wf (Memory.putAll m cells) := by
  induction cells generalizing m with
  | nil => exact h
  | cons p cells ih => exact ih (Memory.put_wf h p.1 p.2)

theorem Memory.mem_putAll {m : Memory} {cells : List Host.Cell} {p : Host.Cell}
    (h : p ∈ Memory.putAll m cells) : p ∈ cells ∨ p ∈ m := by
  induction cells generalizing m with
  | nil => exact .inr h
  | cons q cells ih =>
    rcases ih h with h | h
    · exact .inl (List.mem_cons_of_mem _ h)
    · rcases Memory.mem_put h with h | h
      · exact .inl (by simp [h])
      · exact .inr h

/-- An address that no cell names reads as before. -/
theorem Memory.look_putAll_other {m : Memory} {cells : List Host.Cell} {x : Nat}
    (h : ∀ p ∈ cells, p.1 ≠ x) : Memory.look (Memory.putAll m cells) x = Memory.look m x := by
  induction cells generalizing m with
  | nil => rfl
  | cons q cells ih =>
    rw [Memory.putAll_cons, ih fun p hp => h p (List.mem_cons_of_mem _ hp),
      Memory.look_put_other _ _ (Ne.symm (h q List.mem_cons_self))]

/-- Where no address is named twice, each cell reads back. -/
theorem Memory.look_putAll_mem {m : Memory} {cells : List Host.Cell} (hd : (cells.map Prod.fst).Nodup)
    {p : Host.Cell} (hp : p ∈ cells) : Memory.look (Memory.putAll m cells) p.1 = some p.2 := by
  induction cells generalizing m with
  | nil => simp at hp
  | cons q cells ih =>
    rw [List.map_cons, List.nodup_cons] at hd
    rw [Memory.putAll_cons]
    rcases List.mem_cons.1 hp with rfl | hp
    · rw [Memory.look_putAll_other, Memory.look_put_same]
      intro r hr he
      exact hd.1 (he ▸ List.mem_map_of_mem hr)
    · exact ih hd.2 hp

/-- A byte that was written reads as it was written; any other as the free byte of power-up (R301). -/
theorem Memory.byteOr_of_look {m : Memory} {x : Nat} {b : Byte} (h : Memory.look m x = some b) (u : Nat) :
    Memory.byteOr m u x = b := by simp [Memory.byteOr, h]

theorem Memory.byteOr_congr {m m' : Memory} {x : Nat} (h : Memory.look m x = Memory.look m' x) (u : Nat) :
    Memory.byteOr m u x = Memory.byteOr m' u x := by simp [Memory.byteOr, h]

/-- An address below every listed one has no written value. -/
theorem Memory.look_none_of_lt {m : Memory} {x : Nat} (h : ∀ p ∈ m, x < p.1) : Memory.look m x = none := by
  induction m with
  | nil => rfl
  | cons p m ih =>
    have h1 : p.1 ≠ x := Nat.ne_of_gt (h p List.mem_cons_self)
    simp [Memory.look, h1, ih fun q hq => h q (List.mem_cons_of_mem _ hq)]

/-- Canonical memories with the same written values are equal data. -/
theorem Memory.ext_of_look {m m' : Memory} (hm : Memory.wf m) (hm' : Memory.wf m')
    (h : ∀ x, Memory.look m x = Memory.look m' x) : m = m' := by
  induction m generalizing m' with
  | nil =>
    cases m' with
    | nil => rfl
    | cons q m' => have := h q.1; simp [Memory.look] at this
  | cons p m ih =>
    obtain ⟨hp, hm⟩ := List.pairwise_cons.1 hm
    cases m' with
    | nil => have := h p.1; simp [Memory.look] at this
    | cons q m' =>
      obtain ⟨hq, hm2⟩ := List.pairwise_cons.1 hm'
      have hpq : p.1 = q.1 := by
        rcases Nat.lt_trichotomy p.1 q.1 with hlt | he | hlt
        · have h1 := h p.1
          rw [Memory.look_none_of_lt (m := q :: m')] at h1
          · simp [Memory.look] at h1
          · intro r hr
            rcases List.mem_cons.1 hr with rfl | hr
            · exact hlt
            · exact Nat.lt_trans hlt (hq r hr)
        · exact he
        · have h1 := h q.1
          rw [Memory.look_none_of_lt (m := p :: m)] at h1
          · simp [Memory.look] at h1
          · intro r hr
            rcases List.mem_cons.1 hr with rfl | hr
            · exact hlt
            · exact Nat.lt_trans hlt (hp r hr)
      have hv : p.2 = q.2 := by have h1 := h p.1; simpa [Memory.look, hpq] using h1
      have hpe : p = q := Prod.ext hpq hv
      subst hpe
      congr 1
      refine ih hm hm2 fun x => ?_
      by_cases hx : x = p.1
      · rw [hx, Memory.look_none_of_lt hp, Memory.look_none_of_lt hq]
      · have h1 := h x
        simpa [Memory.look, Ne.symm hx] using h1

end Sys2Proof.Machine
end

