-- ==== Sys2Proof/Laws/Images.lean ====
section
/-! SUPPORT. Images in memory: sample addresses are distinct and inside the region (R75), and what writing the
destination samples of a command leaves. -/

namespace Sys2Proof

theorem mulAdd_lt {y x h w : Nat} (hy : y < h) (hx : x < w) : y * w + x < h * w := by
  have h1 : (y + 1) * w ≤ h * w := Nat.mul_le_mul_right w hy
  rw [Nat.add_mul] at h1
  omega

theorem mulAdd_inj {y x y' x' w : Nat} (hx : x < w) (hx' : x' < w) (h : y * w + x = y' * w + x') :
    y = y' ∧ x = x' := by
  have hw : 0 < w := by omega
  have hy : y = y' := by
    have h1 : (y * w + x) / w = (y' * w + x') / w := by rw [h]
    rwa [Nat.mul_comm y, Nat.mul_comm y', Nat.mul_add_div hw, Nat.mul_add_div hw, Nat.div_eq_of_lt hx,
      Nat.div_eq_of_lt hx', Nat.add_zero, Nat.add_zero] at h1
  subst hy
  exact ⟨rfl, by omega⟩

theorem Desc.addr_inj {im : Desc} {y x c y' x' c' : Nat} (h : im.Has y x c) (h' : im.Has y' x' c')
    (he : im.addr y x c = im.addr y' x' c') : y = y' ∧ x = x' ∧ c = c' := by
  obtain ⟨-, hx, hc⟩ := h
  obtain ⟨-, hx', hc'⟩ := h'
  simp only [Desc.addr] at he
  obtain ⟨h1, h2⟩ := mulAdd_inj hc hc' (by omega : (y * im.w + x) * im.c + c = (y' * im.w + x') * im.c + c')
  obtain ⟨h3, h4⟩ := mulAdd_inj hx hx' h1
  exact ⟨h3, h4, h2⟩

theorem Desc.addr_lt_limit {im : Desc} {y x c : Nat} (h : im.Has y x c) : im.addr y x c < im.limit := by
  have h1 := mulAdd_lt (mulAdd_lt h.1 h.2.1) h.2.2
  simp only [Desc.addr, Desc.limit, Desc.size]
  omega

theorem Desc.base_le_addr (im : Desc) (y x c : Nat) : im.base ≤ im.addr y x c := by
  simp only [Desc.addr]
  omega

theorem Desc.covers_iff {im : Desc} {a : Nat} :
    im.covers a = true ↔ im.base ≤ a ∧ a < im.base + im.h * im.w * im.c := by
  simp only [Desc.covers, Bool.and_eq_true, decide_eq_true_eq]
  rfl

theorem Desc.covers_eq_false_iff {im : Desc} {a : Nat} :
    im.covers a = false ↔ a < im.base ∨ im.base + im.h * im.w * im.c ≤ a := by
  rw [← Bool.not_eq_true, Desc.covers_iff]
  omega

/-- Every sample of an image lies in its region. -/
theorem Desc.covers_addr {im : Desc} {y x c : Nat} (h : im.Has y x c) : im.covers (im.addr y x c) = true := by
  simp [Desc.covers, im.base_le_addr y x c, im.addr_lt_limit h]

/-- A byte of one of two regions that lie apart is not in the other. -/
theorem Desc.covers_false_of_apart {d x : Desc} (h : d.Apart x) {a : Nat} (ha : x.covers a = true) :
    d.covers a = false := by
  have h1 : d.base + d.h * d.w * d.c ≤ x.base ∨ x.base + x.h * x.w * x.c ≤ d.base := h
  rw [Desc.covers_iff] at ha
  rw [Desc.covers_eq_false_iff]
  omega

theorem Desc.mem_coords {im : Desc} {q : Nat × Nat × Nat} : q ∈ im.coords ↔ im.Has q.1 q.2.1 q.2.2 := by
  obtain ⟨y, x, c⟩ := q
  simp [Desc.coords, Desc.Has]

theorem Desc.coords_nodup (im : Desc) : im.coords.Nodup := by
  refine List.nodup_flatMap.2 ⟨fun y _ => List.nodup_flatMap.2 ⟨fun x _ => ?_, ?_⟩, ?_⟩
  · exact List.nodup_range.map fun _ _ h => by simpa using h
  · refine List.nodup_range.imp fun {x x'} hne => ?_
    intro q hq hq'
    simp only [List.mem_map] at hq hq'
    obtain ⟨_, _, rfl⟩ := hq
    obtain ⟨_, _, h⟩ := hq'
    simp only [Prod.mk.injEq] at h
    exact hne h.2.1.symm
  · refine List.nodup_range.imp fun {y y'} hne => ?_
    intro q hq hq'
    simp only [List.mem_flatMap, List.mem_map] at hq hq'
    obtain ⟨_, _, _, _, rfl⟩ := hq
    obtain ⟨_, _, _, _, h⟩ := hq'
    simp only [Prod.mk.injEq] at h
    exact hne h.1.symm

namespace Machine

/-- The destination cells, one for each sample of the image. -/
theorem imageCells_eq_map (d : Desc) (f : Nat → Nat → Nat → Byte) :
    imageCells d f = d.coords.map fun q => (d.addr q.1 q.2.1 q.2.2, f q.1 q.2.1 q.2.2) := by
  simp [imageCells, Desc.coords, List.map_flatMap, Function.comp_def]

theorem mem_imageCells {d : Desc} {f : Nat → Nat → Nat → Byte} {p : Host.Cell} :
    p ∈ imageCells d f ↔ ∃ y x c, d.Has y x c ∧ p = (d.addr y x c, f y x c) := by
  rw [imageCells_eq_map, List.mem_map]
  constructor
  · rintro ⟨q, hq, rfl⟩
    exact ⟨q.1, q.2.1, q.2.2, Desc.mem_coords.1 hq, rfl⟩
  · rintro ⟨y, x, c, h, rfl⟩
    exact ⟨(y, x, c), Desc.mem_coords.2 h, rfl⟩

/-- Each destination sample is written exactly once (R243). -/
theorem imageCells_nodup (d : Desc) (f : Nat → Nat → Nat → Byte) : ((imageCells d f).map Prod.fst).Nodup := by
  rw [imageCells_eq_map, List.map_map]
  refine List.Nodup.map_on (fun q hq q' hq' he => ?_) d.coords_nodup
  obtain ⟨h1, h2, h3⟩ := Desc.addr_inj (Desc.mem_coords.1 hq) (Desc.mem_coords.1 hq') he
  exact Prod.ext h1 (Prod.ext h2 h3)

theorem imageCells_covered {d : Desc} {f : Nat → Nat → Nat → Byte} {p : Host.Cell} (h : p ∈ imageCells d f) :
    d.covers p.1 = true := by
  obtain ⟨y, x, c, hh, rfl⟩ := mem_imageCells.1 h
  exact Desc.covers_addr hh

/-- After the destination samples are written, each reads back. -/
theorem look_image_sample (m : Memory) {d : Desc} (f : Nat → Nat → Nat → Byte) {y x c : Nat} (h : d.Has y x c) :
    Memory.look (Memory.putAll m (imageCells d f)) (d.addr y x c) = some (f y x c) :=
  Memory.look_putAll_mem (imageCells_nodup d f) (mem_imageCells.2 ⟨y, x, c, h, rfl⟩)

/-- After the destination samples are written, every byte outside the region is as before. -/
theorem look_image_outside (m : Memory) {d : Desc} (f : Nat → Nat → Nat → Byte) {a : Nat}
    (h : d.covers a = false) : Memory.look (Memory.putAll m (imageCells d f)) a = Memory.look m a :=
  Memory.look_putAll_other fun p hp he => by
    have := imageCells_covered hp
    rw [he, h] at this
    exact Bool.noConfusion this

end Machine
end Sys2Proof
end

