-- ==== Sys2Proof/Laws/Exec.lean ====
section
/-! SUPPORT. What each shared operation of the machine can do, said once: the checks, `perform`, `exec`, the sequencer's
step, START, CLEAR and the host's moves. -/

namespace Sys2Proof.Machine

theorem firstFailing_eq_none {l : List (Bool × FCode)} : firstFailing l = none ↔ ∀ p ∈ l, p.1 = false := by
  induction l with
  | nil => simp [firstFailing]
  | cons p l ih => obtain ⟨b, code⟩ := p; cases b <;> simp [firstFailing, ih]

theorem firstFailing_mem {l : List (Bool × FCode)} {code : FCode} (h : firstFailing l = some code) :
    (true, code) ∈ l := by
  induction l with
  | nil => simp [firstFailing] at h
  | cons p l ih =>
    obtain ⟨b, code'⟩ := p
    cases b
    · exact List.mem_cons_of_mem _ (ih h)
    · obtain rfl : code' = code := by simpa [firstFailing] using h
      exact List.mem_cons_self

/-- The checks of a data command on its descriptors. -/
def checksOf (i : Instr) (p : Config) : List (Bool × FCode) :=
  match i with
  | .endRun => []
  | .encode _ a b d => encodeChecks p a b d
  | .decode _ a b d => decodeChecks p a b d
  | .resize a d => resizeChecks p a d
  | .binarize _ a d => binarizeChecks p a d
  | .embed _ a b d => embedChecks p a b d
  | .extract _ a b d => extractChecks p a b d

/-- Every data command is its checks and its destination samples. -/
theorem exec_eq_perform {i : Instr} {d : Desc} (h : i.dest = some d) (s : State) :
    exec i s = s.perform (checksOf i s.cfg) (imageCells d (sampleValue i s)) := by
  cases i <;> simp only [Instr.dest, Option.some.injEq, reduceCtorEq] at h <;> subst h <;> rfl

theorem checksOf_code_ne_none {i : Instr} {p : Config} {code : FCode}
    (h : firstFailing (checksOf i p) = some code) : code ≠ .none := by
  have h1 := firstFailing_mem h
  rintro rfl
  cases i <;> simp [checksOf, encodeChecks, decodeChecks, resizeChecks, binarizeChecks, embedChecks, extractChecks,
    checksAD, checksABD] at h1

/-- A destination that passes its checks is in bounds (R78). -/
theorem checksOf_dest_inside {i : Instr} {p : Config} {d : Desc} (hd : i.dest = some d)
    (h : firstFailing (checksOf i p) = none) : d.limit ≤ p.memSize := by
  have h1 : (d.outOfBounds p.memSize, FCode.bounds) ∈ checksOf i p := by
    cases i <;> simp only [Instr.dest, Option.some.injEq, reduceCtorEq] at hd <;> subst hd <;>
      simp [checksOf, encodeChecks, decodeChecks, resizeChecks, binarizeChecks, embedChecks, extractChecks,
        checksAD, checksABD]
  have h2 := firstFailing_eq_none.1 h _ h1
  simpa [Desc.outOfBounds] using h2

/-- A destination that passes its checks overlaps no source (R79). -/
theorem checksOf_source_apart {i : Instr} {p : Config} {d x : Desc} (hd : i.dest = some d) (hx : x ∈ i.sources)
    (h : firstFailing (checksOf i p) = none) : d.overlaps x = false := by
  have h1 : (d.overlaps x, FCode.aliasing) ∈ checksOf i p := by
    cases i <;> simp only [Instr.dest, Option.some.injEq, reduceCtorEq] at hd <;> subst hd <;>
      simp only [Instr.sources, List.mem_cons, List.not_mem_nil, or_false] at hx <;>
      (try rcases hx with rfl | rfl) <;>
      simp [checksOf, encodeChecks, decodeChecks, resizeChecks, binarizeChecks, embedChecks, extractChecks,
        checksAD, checksABD]
  exact firstFailing_eq_none.1 h _ h1

/-- A byte of a source is no byte of a destination that does not overlap it. -/
theorem covers_false_of_not_overlaps {d x : Desc} (h : d.overlaps x = false) {a : Nat} (ha : x.covers a = true) :
    d.covers a = false := by
  simp only [Desc.overlaps, Desc.covers, Bool.and_eq_true, Bool.and_eq_false_iff, decide_eq_true_eq,
    decide_eq_false_iff_not] at *
  omega

theorem perform_of_failing {s : State} {checks : List (Bool × FCode)} {cells : List Host.Cell} {code : FCode}
    (h : firstFailing checks = some code) : s.perform checks cells = .next (s.faulted code) := by
  simp only [State.perform, h]
  rfl

theorem perform_of_passing {s : State} {checks : List (Bool × FCode)} {cells : List Host.Cell}
    (h : firstFailing checks = none) :
    s.perform checks cells = .next (s.completed (Memory.putAll s.mem cells)) := by
  simp only [State.perform, h]
  rfl

/-- What one command can do: end the run, fault and write nothing, or complete over its destination. -/
theorem exec_cases {i : Instr} {s t : State} (h : exec i s = .next t) :
    (i = .endRun ∧ t = s.finish) ∨
    (∃ code, code ≠ .none ∧ t = s.faulted code) ∨
    (∃ d, i.dest = some d ∧ firstFailing (checksOf i s.cfg) = none ∧
      t = s.completed (Memory.putAll s.mem (imageCells d (sampleValue i s)))) := by
  cases hd : i.dest with
  | none =>
    cases i <;> simp [Instr.dest] at hd
    exact .inl ⟨rfl, by simpa [exec, execEndRun] using h.symm⟩
  | some d =>
    rw [exec_eq_perform hd] at h
    cases hf : firstFailing (checksOf i s.cfg) with
    | some code =>
      rw [perform_of_failing hf] at h
      exact .inr (.inl ⟨code, checksOf_code_ne_none hf, (Host.Outcome.next.inj h).symm⟩)
    | none =>
      rw [perform_of_passing hf] at h
      exact .inr (.inr ⟨d, rfl, rfl, (Host.Outcome.next.inj h).symm⟩)

/-- Every command answers a next state. -/
theorem exec_answers (i : Instr) (s : State) : ∃ t, exec i s = .next t := by
  cases hd : i.dest with
  | none => cases i <;> simp [Instr.dest] at hd; exact ⟨_, rfl⟩
  | some d =>
    rw [exec_eq_perform hd]
    cases hf : firstFailing (checksOf i s.cfg) with
    | some code => exact ⟨_, perform_of_failing hf⟩
    | none => exact ⟨_, perform_of_passing hf⟩

/-- Filling the latch changes nothing that a command does: it reads its operands from memory and empties the latch. -/
theorem exec_latchCommand (i : Instr) (s : State) : exec i s.latchCommand = exec i s := by
  cases hd : i.dest with
  | none => cases i <;> simp [Instr.dest] at hd; rfl
  | some d =>
    have hv : sampleValue i s.latchCommand = sampleValue i s := by cases i <;> rfl
    rw [exec_eq_perform hd, exec_eq_perform hd, hv]
    cases hf : firstFailing (checksOf i s.cfg) with
    | some code => exact (perform_of_failing (s := s.latchCommand) hf).trans (perform_of_failing (s := s) hf).symm
    | none => exact (perform_of_passing (s := s.latchCommand) hf).trans (perform_of_passing (s := s) hf).symm

theorem sequencerStep_idle {s : State} (h : s.run ≠ .busy) : sequencerStep s = .next s := by
  simp [sequencerStep, h]

theorem sequencerStep_unfetchable {s : State} (h : s.run = .busy) (hf : s.fetchable = false) :
    sequencerStep s = .next (s.faulted .fetch) := by
  simp [sequencerStep, h, hf, State.raiseFault_eq_faulted]

theorem sequencerStep_reject {s : State} {r : Reject} (h : s.run = .busy) (hf : s.fetchable = true)
    (hd : decodeCommand s.fetchCommand = .reject r) :
    sequencerStep s = .next (s.faulted (rejectCode r)) := by
  simp [sequencerStep, h, hf, State.runLatched, hd]
  rfl

theorem sequencerStep_instr {s : State} {i : Instr} (h : s.run = .busy) (hf : s.fetchable = true)
    (hd : decodeCommand s.fetchCommand = .instr i) : sequencerStep s = exec i s := by
  simp [sequencerStep, h, hf, State.runLatched, hd, exec_latchCommand]

/-- What one step of the sequencer can do. -/
theorem sequencerStep_cases {s t : State} (h : sequencerStep s = .next t) :
    (s.run ≠ .busy ∧ t = s) ∨
    (s.run = .busy ∧ s.fetchable = false ∧ t = s.faulted .fetch) ∨
    (s.run = .busy ∧ s.fetchable = true ∧
      ∃ r, decodeCommand s.fetchCommand = .reject r ∧ t = s.faulted (rejectCode r)) ∨
    (s.run = .busy ∧ s.fetchable = true ∧ ∃ i, decodeCommand s.fetchCommand = .instr i ∧ exec i s = .next t) := by
  by_cases hb : s.run = .busy
  · cases hf : s.fetchable with
    | false =>
      rw [sequencerStep_unfetchable hb hf] at h
      exact .inr (.inl ⟨hb, rfl, (Host.Outcome.next.inj h).symm⟩)
    | true =>
      cases hd : decodeCommand s.fetchCommand with
      | reject r =>
        rw [sequencerStep_reject hb hf hd] at h
        exact .inr (.inr (.inl ⟨hb, rfl, r, rfl, (Host.Outcome.next.inj h).symm⟩))
      | instr i =>
        rw [sequencerStep_instr hb hf hd] at h
        exact .inr (.inr (.inr ⟨hb, rfl, i, rfl, h⟩))
  · rw [sequencerStep_idle hb] at h
    exact .inl ⟨hb, (Host.Outcome.next.inj h).symm⟩

theorem rejectCode_ne_none (r : Reject) : rejectCode r ≠ .none := by cases r <;> simp [rejectCode]

/-- START does nothing, or begins a run, or begins one that faults ALIGN at once (R240). -/
theorem start_cases (s : State) :
    (s.run = .busy ∧ s.start = s) ∨
    (s.run ≠ .busy ∧ s.cmdptr.toNat % 4 ≠ 0 ∧ s.start = s.beginRun.faulted .align) ∨
    (s.run ≠ .busy ∧ s.cmdptr.toNat % 4 = 0 ∧ s.start = s.beginRun) := by
  by_cases hb : s.run = .busy
  · exact .inl ⟨hb, by simp [State.start, hb]⟩
  · by_cases ha : s.cmdptr.toNat % 4 = 0
    · exact .inr (.inr ⟨hb, ha, by simp [State.start, hb, ha]⟩)
    · exact .inr (.inl ⟨hb, ha, by simp [State.start, hb, ha, State.raiseFault_eq_faulted]⟩)

/-- CLEAR returns a finished run to IDLE, or does nothing (R275). -/
theorem clear_cases (s : State) :
    ((s.run = .done ∨ s.run = .fault) ∧ s.clear = { s with run := .idle, fcode := .none }) ∨
    (¬ (s.run = .done ∨ s.run = .fault) ∧ s.clear = s) := by
  by_cases h : s.run = .done ∨ s.run = .fault
  · exact .inl ⟨h, by simp only [State.clear, if_pos h]⟩
  · exact .inr ⟨h, by simp only [State.clear, if_neg h]⟩

/-- A register write is IE and then START, CLEAR or nothing; or CMDPTR; or nothing (R33, R36). -/
theorem writeReg_cases (s : State) (offset : Nat) (v : Word) :
    (offset = 0x04 ∧ v.getLsbD 0 = true ∧ s.writeReg offset v = State.start { s with ie := v.getLsbD 2 }) ∨
    (offset = 0x04 ∧ v.getLsbD 0 = false ∧ v.getLsbD 1 = true ∧
      s.writeReg offset v = State.clear { s with ie := v.getLsbD 2 }) ∨
    (offset = 0x04 ∧ v.getLsbD 0 = false ∧ v.getLsbD 1 = false ∧
      s.writeReg offset v = { s with ie := v.getLsbD 2 }) ∨
    (offset = 0x0C ∧ s.writeReg offset v = { s with cmdptr := v }) ∨
    (offset ≠ 0x04 ∧ offset ≠ 0x0C ∧ s.writeReg offset v = s) := by
  by_cases h4 : offset = 0x04
  · simp only [State.writeReg, h4, if_true, State.writeCtrl]
    cases h0 : v.getLsbD 0 <;> cases h1 : v.getLsbD 1 <;> simp
  · by_cases hc : offset = 0x0C
    · simp [State.writeReg, hc]
    · simp [State.writeReg, h4, hc]

/-- What one host move can do when it answers a next state. -/
theorem hostMove_cases {m : HostMove} {s t : State} (h : hostMove m s = .next t) :
    (m = .pause ∧ sequencerStep s = .next t) ∨
    (∃ o, t = { s with busData := some (s.readReg o) } ∧ m = .readReg o 4) ∨
    (∃ o v, t = s.writeReg o v ∧ m = .writeReg o 4 v) ∨
    (∃ a, a < s.cfg.memSize ∧ m = .readMem a ∧
      t = { s with busData := some ((s.hostByte a).setWidth 32), draws := s.draws + 1 }) ∨
    (∃ a v, s.run ≠ .busy ∧ a < s.cfg.memSize ∧ m = .writeMem a v ∧ t = { s with mem := Memory.put s.mem a v }) ∨
    (m = .reset ∧ t = s.hostReset) := by
  cases m with
  | pause => exact .inl ⟨rfl, h⟩
  | readReg o w =>
    simp only [hostMove] at h
    split at h
    · rename_i hok
      obtain rfl : w = 4 := by simp [registerAccessOk] at hok; exact hok.1.1
      exact .inr (.inl ⟨o, (Host.Outcome.next.inj h).symm, rfl⟩)
    · cases h
  | writeReg o w v =>
    simp only [hostMove] at h
    split at h
    · rename_i hok
      obtain rfl : w = 4 := by simp [registerAccessOk] at hok; exact hok.1.1
      exact .inr (.inr (.inl ⟨o, v, (Host.Outcome.next.inj h).symm, rfl⟩))
    · cases h
  | readMem a =>
    simp only [hostMove] at h
    split at h
    · rename_i ha
      exact .inr (.inr (.inr (.inl ⟨a, ha, rfl, (Host.Outcome.next.inj h).symm⟩)))
    · cases h
  | writeMem a v =>
    simp only [hostMove] at h
    split at h
    · cases h
    · rename_i hb
      split at h
      · rename_i ha
        exact .inr (.inr (.inr (.inr (.inl ⟨a, v, hb, ha, rfl, (Host.Outcome.next.inj h).symm⟩))))
      · cases h
  | reset => exact .inr (.inr (.inr (.inr (.inr ⟨rfl, (Host.Outcome.next.inj h).symm⟩))))

/-- A byte that the command at CUR writes is a byte of its destination, with the value it leaves there. -/
theorem commandWrites_mem {s : State} {p : Host.Cell} (h : p ∈ s.commandWrites) :
    ∃ i d t, s.run = .busy ∧ s.fetchable = true ∧ decodeCommand s.fetchCommand = .instr i ∧ i.dest = some d ∧
      exec i s = .next t ∧ t.run = .busy ∧ d.covers p.1 = true ∧ p.2 = t.byte p.1 := by
  unfold State.commandWrites at h
  split at h
  · rename_i hb
    simp only [Bool.and_eq_true, decide_eq_true_eq] at hb
    obtain ⟨hb, hf⟩ := hb
    split at h
    · rename_i i t hd hs
      rw [sequencerStep_instr hb hf hd] at hs
      split at h
      · rename_i ht
        cases hdest : i.dest with
        | none => simp [hdest] at h
        | some d =>
          simp only [hdest, Option.map_some, Option.getD_some, State.regionCells, List.mem_map, List.mem_range] at h
          obtain ⟨k, hk, rfl⟩ := h
          refine ⟨i, d, t, hb, hf, hd, hdest, hs, ht, ?_, rfl⟩
          simp [Desc.covers, Desc.limit, hk]
      · simp at h
    · simp at h
  · simp at h

/-- Placing a command leaves the machine ready to fetch it, where the memory can hold a command at all. -/
theorem placeAddress_fits {s : State} (h : 32 ≤ s.cfg.memSize) : s.placeAddress.toNat + 32 ≤ s.cfg.memSize := by
  unfold State.placeAddress
  split
  · rename_i hf
    simpa [State.fetchable] using hf
  · simpa using h

end Sys2Proof.Machine
end

