-- ==== Sys2Proof/Laws/Codec.lean ====
section
/-! SUPPORT. Bytes, words and bit fields: little-endian reading inverts little-endian writing, and fields of numerals. -/

namespace Sys2Proof

@[simp] theorem length_leBytes (n v : Nat) : (leBytes n v).length = n := by
  induction n generalizing v with
  | zero => rfl
  | succ n ih => simp [leBytes, ih]

/-- Reading back the bytes of a natural gives it modulo their width (R72). -/
theorem leNat_leBytes (n v : Nat) : leNat (leBytes n v) = v % 256 ^ n := by
  induction n generalizing v with
  | zero => simp [leBytes, leNat, Nat.mod_one]
  | succ n ih =>
    have h : (256 : Nat) ^ (n + 1) = 256 * 256 ^ n := by rw [Nat.pow_succ, Nat.mul_comm]
    rw [leBytes, leNat, ih, BitVec.toNat_ofNat, h, Nat.mod_mul]

theorem leNat_lt (bs : List Byte) : leNat bs < 256 ^ bs.length := by
  induction bs with
  | nil => simp [leNat]
  | cons b bs ih =>
    have hb := b.isLt
    rw [leNat, List.length_cons, Nat.pow_succ]
    omega

/-- A bit field of a numeral. -/
theorem bitField_ofNat (n hi lo : Nat) :
    bitField (BitVec.ofNat 32 n) hi lo = n % 2 ^ 32 / 2 ^ lo % 2 ^ (hi + 1 - lo) := by
  simp [bitField, BitVec.toNat_ofNat]

theorem bitField_lt (v : Word) (hi lo : Nat) : bitField v hi lo < 2 ^ (hi + 1 - lo) :=
  Nat.mod_lt _ (Nat.two_pow_pos _)

/-- The bytes of a word, read back. -/
theorem wordOfBytes_leBytes (w : Word) (rest : List Byte) :
    wordOfBytes (leBytes 4 w.toNat ++ rest) 0 = w := by
  have h : ((leBytes 4 w.toNat ++ rest).drop (4 * 0)).take 4 = leBytes 4 w.toNat := by simp [leBytes]
  have hw := w.isLt
  rw [wordOfBytes, h, leNat_leBytes]
  apply BitVec.eq_of_toNat_eq
  rw [BitVec.toNat_ofNat]
  omega

/-- Dropping the first word of a list of bytes. -/
theorem wordOfBytes_succ (w : Word) (rest : List Byte) (i : Nat) :
    wordOfBytes (leBytes 4 w.toNat ++ rest) (i + 1) = wordOfBytes rest i := by
  have h : (leBytes 4 w.toNat ++ rest).drop (4 * (i + 1)) = rest.drop (4 * i) := by
    rw [Nat.mul_succ, Nat.add_comm, ← List.drop_drop]
    simp [leBytes]
  simp [wordOfBytes, h]

/-- The words of a command's 32 bytes are the command's words (R73, R110). -/
theorem commandOfBytes_bytes (c : Command) (rest : List Byte) : commandOfBytes (c.bytes ++ rest) = c := by
  have h : c.bytes ++ rest = leBytes 4 c.w0.toNat ++ (leBytes 4 c.w1.toNat ++ (leBytes 4 c.w2.toNat ++
      (leBytes 4 c.w3.toNat ++ (leBytes 4 c.w4.toNat ++ (leBytes 4 c.w5.toNat ++ (leBytes 4 c.w6.toNat ++
      (leBytes 4 c.w7.toNat ++ rest))))))) := by
    simp [Command.bytes, List.flatMap_cons, List.append_assoc]
  simp [commandOfBytes, h, wordOfBytes_leBytes, wordOfBytes_succ]

@[simp] theorem Command.length_bytes (c : Command) : c.bytes.length = 32 := by simp [Command.bytes]

end Sys2Proof
end

