-- ==== Sys2Proof/Laws/Operands.lean ====
section
/-! SUPPORT. Each check on descriptors as the plain condition claims state, and the completion of a command whose checks
pass. -/

namespace Sys2Proof

theorem Desc.channelsBad_iff {p : Config} {x : Desc} : x.channelsBad p.cmax = true ↔ ¬ x.ChannelsLegal p := by
  simp [Desc.channelsBad, Desc.ChannelsLegal]
  omega

theorem Desc.dimBad_iff {x : Desc} : x.dimBad = true ↔ x.NoDim := by simp [Desc.dimBad]

theorem Desc.outOfBounds_iff {p : Config} {x : Desc} : x.outOfBounds p.memSize = true ↔ x.Outside p := by
  simp only [Desc.outOfBounds, decide_eq_true_eq]
  rfl

theorem Desc.sizeDiffers_iff {x z : Desc} : x.sizeDiffers z = true ↔ ¬ x.SameSize z := by
  simp only [Desc.sizeDiffers, Desc.SameSize, Bool.or_eq_true, bne_iff_ne]
  tauto

theorem Desc.overlaps_iff {x z : Desc} : x.overlaps z = true ↔ x.Meets z := by
  simp only [Desc.Meets, Desc.covers_iff, Desc.overlaps, decide_eq_true_eq]
  simp only [Desc.limit, Desc.size]
  constructor
  · intro h
    exact ⟨max x.base z.base, by omega, by omega⟩
  · rintro ⟨a, h1, h2⟩
    omega

theorem Desc.overlaps_false_of_apart {x z : Desc} (h : x.Apart z) : x.overlaps z = false := by
  simp only [Desc.overlaps, decide_eq_false_iff_not]
  simp only [Desc.Apart] at h
  simp only [Desc.limit, Desc.size]
  omega

theorem Desc.dimBad_false_of_fits {p : Config} {x : Desc} (h : x.Fits p) : x.dimBad = false := by
  have h1 := h.1
  have h2 := h.2.1
  simp [Desc.dimBad]
  omega

theorem Desc.outOfBounds_false_of_fits {p : Config} {x : Desc} (h : x.Fits p) : x.outOfBounds p.memSize = false := by
  have h1 := h.2.2
  simp only [Desc.outOfBounds, decide_eq_false_iff_not]
  simp only [Desc.limit, Desc.size]
  omega

end Sys2Proof

namespace Sys2Proof.Machine

theorem firstFailing_append (g l : List (Bool × FCode)) :
    firstFailing (g ++ l) = (firstFailing g).or (firstFailing l) := by
  induction g with
  | nil => simp [firstFailing]
  | cons p g ih => obtain ⟨b, code⟩ := p; cases b <;> simp [firstFailing, ih]

/-- A data command whose checks pass completes over its destination with the values of its rule. -/
theorem completesWith_of_passing {i : Instr} {d : Desc} {s : State} {f : (y x c : Nat) → Byte} (hd : i.dest = some d)
    (hc : firstFailing (checksOf i s.cfg) = none) (hf : ∀ y x c, d.Has y x c → sampleValue i s y x c = f y x c) :
    CompletesWith i s d f := by
  refine ⟨_, (exec_eq_perform hd s).trans (perform_of_passing hc), fun y x c h => ?_, fun a ha => ?_⟩
  · rw [← hf y x c h]
    exact Memory.byteOr_of_look (look_image_sample s.mem (sampleValue i s) h) _
  · exact Memory.byteOr_congr (look_image_outside s.mem (sampleValue i s) ha) _

end Sys2Proof.Machine
end

