-- ==== Sys2Proof/Laws/PerInstr.lean ====
section
/-! SUPPORT. Statements about every instruction as syntax, one lemma per constructor. -/

namespace Sys2Proof.Laws

/-- The encoder leaves the reserved fields 0 (R119, R123). -/
def ReservedZero.Statement (i : Instr) : Prop := i.wellFormed = true → (encode i).reservedClear = true

theorem reservedClear_commandOf {opc meth thr : Nat} {a b d : Desc} (ho : opc < 16) (hm : meth < 4) (ht : thr < 256)
    (ha : a.c < 8) (hb : b.c < 8) (hd : d.c < 8) : (commandOf opc meth thr a b d).reservedClear = true := by
  simp only [Command.reservedClear, commandOf, headerWord, bitField_ofNat, Bool.and_eq_true, beq_iff_eq, and_true]
  omega

theorem methodCode_lt (m : Method) : m.code < 4 := by cases m <;> decide

theorem wellFormed_c_lt {x : Desc} (h : x.wellFormed = true) : x.c < 8 := by
  simp [Desc.wellFormed] at h; omega

theorem zero_c_lt : Desc.zero.c < 8 := by decide

theorem ReservedZero.endRun : ReservedZero.Statement .endRun := fun _ => by decide

theorem ReservedZero.encode (m : Method) (a b d : Desc) : ReservedZero.Statement (.encode m a b d) := fun h => by
  simp only [Instr.wellFormed, Bool.and_eq_true] at h
  exact reservedClear_commandOf (by omega) (methodCode_lt m) (by omega) (wellFormed_c_lt h.1.1) (wellFormed_c_lt h.1.2)
    (wellFormed_c_lt h.2)

theorem ReservedZero.decode (m : Method) (a b d : Desc) : ReservedZero.Statement (.decode m a b d) := fun h => by
  simp only [Instr.wellFormed, Bool.and_eq_true] at h
  exact reservedClear_commandOf (by omega) (methodCode_lt m) (by omega) (wellFormed_c_lt h.1.1) (wellFormed_c_lt h.1.2)
    (wellFormed_c_lt h.2)

theorem ReservedZero.resize (a d : Desc) : ReservedZero.Statement (.resize a d) := fun h => by
  simp only [Instr.wellFormed, Bool.and_eq_true] at h
  exact reservedClear_commandOf (by omega) (by omega) (by omega) (wellFormed_c_lt h.1) zero_c_lt (wellFormed_c_lt h.2)

theorem ReservedZero.binarize (t : Nat) (a d : Desc) : ReservedZero.Statement (.binarize t a d) := fun h => by
  simp only [Instr.wellFormed, thresholdWellFormed, Bool.and_eq_true, decide_eq_true_eq] at h
  exact reservedClear_commandOf (by omega) (by omega) h.1.1 (wellFormed_c_lt h.1.2) zero_c_lt (wellFormed_c_lt h.2)

theorem ReservedZero.embed (m : Method) (a b d : Desc) : ReservedZero.Statement (.embed m a b d) := fun h => by
  simp only [Instr.wellFormed, Bool.and_eq_true] at h
  exact reservedClear_commandOf (by omega) (methodCode_lt m) (by omega) (wellFormed_c_lt h.1.1) (wellFormed_c_lt h.1.2)
    (wellFormed_c_lt h.2)

theorem ReservedZero.extract (m : Method) (a b d : Desc) : ReservedZero.Statement (.extract m a b d) := fun h => by
  simp only [Instr.wellFormed, Bool.and_eq_true] at h
  exact reservedClear_commandOf (by omega) (methodCode_lt m) (by omega) (wellFormed_c_lt h.1.1) (wellFormed_c_lt h.1.2)
    (wellFormed_c_lt h.2)

end Sys2Proof.Laws
end

