-- ==== Sys2Proof/Laws/Run.lean ====
section
/-! SUPPORT. What a run writes: the writes of one command both ways, and that neither a command nor a run looks at the
fields the host reaches during a run. -/

namespace Sys2Proof.Machine

/-- A byte of the destination of a command that completes is among what the command writes. -/
theorem mem_commandWrites {s t : State} {i : Instr} {d : Desc} {a : Nat} (hb : s.run = .busy)
    (hd : decodeCommand s.fetchCommand = .instr i) (hdest : i.dest = some d) (h : sequencerStep s = .next t)
    (ht : t.run = .busy) (ha : d.covers a = true) : (a, t.byte a) ∈ s.commandWrites := by
  have hf : s.fetchable = true := by
    cases hf : s.fetchable with
    | true => rfl
    | false =>
      rw [sequencerStep_unfetchable hb hf] at h
      obtain rfl := Host.Outcome.next.inj h
      cases ht
  obtain ⟨h1, h2⟩ := Desc.covers_iff.1 ha
  have hk : d.base + (a - d.base) = a := by omega
  simp only [State.commandWrites, hb, hf, hd, h, ht, hdest, decide_true, Bool.and_self, if_true, Option.map_some,
    Option.getD_some, State.regionCells, List.mem_map, List.mem_range]
  exact ⟨a - d.base, by simp only [Desc.size]; omega, by rw [hk]⟩

/-- A state with other values in the fields that the host reaches during a run. -/
def State.withHostFields (s : State) (ie : Bool) (ptr : Word) (moves : List HostMove) (data : Option Word)
    (draws : Nat) : State :=
  { s with ie := ie, cmdptr := ptr, inbox := moves, busData := data, draws := draws }

/-- The next state of an outcome with other values in those fields. -/
def withHostFieldsOf (o : Host.Outcome State Fault Refusal) (ie : Bool) (ptr : Word) (moves : List HostMove)
    (data : Option Word) (draws : Nat) : Host.Outcome State Fault Refusal :=
  match o with
  | .next t => .next (t.withHostFields ie ptr moves data draws)
  | .fault r => .fault r
  | .refused r => .refused r

section
variable (s : State) (ie : Bool) (ptr : Word) (moves : List HostMove) (data : Option Word) (draws : Nat)

@[simp] theorem State.withHostFields_run : (s.withHostFields ie ptr moves data draws).run = s.run := rfl

@[simp] theorem State.withHostFields_fetchable : (s.withHostFields ie ptr moves data draws).fetchable = s.fetchable := rfl

@[simp] theorem State.withHostFields_fetchCommand :
    (s.withHostFields ie ptr moves data draws).fetchCommand = s.fetchCommand := rfl

@[simp] theorem State.withHostFields_regionCells (d : Desc) :
    (s.withHostFields ie ptr moves data draws).regionCells d = s.regionCells d := rfl

theorem exec_withHostFields (i : Instr) :
    exec i (s.withHostFields ie ptr moves data draws) = withHostFieldsOf (exec i s) ie ptr moves data draws := by
  cases hd : i.dest with
  | none => cases i <;> simp [Instr.dest] at hd; rfl
  | some d =>
    have hv : sampleValue i (s.withHostFields ie ptr moves data draws) = sampleValue i s := by cases i <;> rfl
    rw [exec_eq_perform hd, exec_eq_perform hd, hv]
    cases hf : firstFailing (checksOf i s.cfg) with
    | some code =>
      rw [perform_of_failing (s := s) hf]
      exact perform_of_failing (s := s.withHostFields ie ptr moves data draws) hf
    | none =>
      rw [perform_of_passing (s := s) hf]
      exact perform_of_passing (s := s.withHostFields ie ptr moves data draws) hf

theorem sequencerStep_withHostFields :
    sequencerStep (s.withHostFields ie ptr moves data draws) =
      withHostFieldsOf (sequencerStep s) ie ptr moves data draws := by
  by_cases hb : s.run = .busy
  · cases hf : s.fetchable with
    | false =>
      rw [sequencerStep_unfetchable hb hf]
      exact sequencerStep_unfetchable (s := s.withHostFields ie ptr moves data draws) hb hf
    | true =>
      cases hd : decodeCommand s.fetchCommand with
      | reject r =>
        rw [sequencerStep_reject hb hf hd]
        exact sequencerStep_reject (s := s.withHostFields ie ptr moves data draws) hb hf hd
      | instr i =>
        rw [sequencerStep_instr hb hf hd, ← exec_withHostFields]
        exact sequencerStep_instr (s := s.withHostFields ie ptr moves data draws) hb hf hd
  · rw [sequencerStep_idle hb]
    exact sequencerStep_idle (s := s.withHostFields ie ptr moves data draws) hb

theorem commandWrites_withHostFields :
    (s.withHostFields ie ptr moves data draws).commandWrites = s.commandWrites := by
  simp only [State.commandWrites, sequencerStep_withHostFields, State.withHostFields_run,
    State.withHostFields_fetchable, State.withHostFields_fetchCommand]
  cases decodeCommand s.fetchCommand <;> cases sequencerStep s <;> rfl

theorem runWrites_withHostFields (n : Nat) :
    State.runWrites n (s.withHostFields ie ptr moves data draws) = State.runWrites n s := by
  induction n generalizing s with
  | zero => rfl
  | succ n ih =>
    simp only [State.runWrites, sequencerStep_withHostFields, commandWrites_withHostFields, State.withHostFields_run]
    cases sequencerStep s with
    | next t => simp only [withHostFieldsOf, ih]
    | fault r => rfl
    | refused r => rfl

/-- What a run writes does not depend on what the host does during it. -/
theorem runValues_withHostFields (a : Nat) :
    (s.withHostFields ie ptr moves data draws).runValues a = s.runValues a := by
  have h := runWrites_withHostFields s.runBegin ie ptr moves data draws (s.cfg.memSize / 32 + 1)
  exact congrArg (fun l => (l.filter fun p : Host.Cell => p.1 == a).map Prod.snd) h

end

end Sys2Proof.Machine
end

