-- ==== Sys2Proof/Laws/Sampler.lean ====
section
/-! SUPPORT. A map or combination given as a parameter: a function that meets its laws is not changed by being made
lawful, and its table holds its values (log 4). -/

namespace Sys2Proof.Laws

open Sys2Proof.Machine

theorem le_runningMax (f : Nat → Nat) {a b : Nat} (h : a ≤ b) : f a ≤ runningMax f b := by
  induction b with
  | zero =>
    obtain rfl : a = 0 := by omega
    exact Nat.le_refl _
  | succ b ih =>
    rcases Nat.lt_or_ge b a with h1 | h1
    · obtain rfl : a = b + 1 := by omega
      exact Nat.le_max_right _ _
    · exact Nat.le_trans (ih h1) (Nat.le_max_left _ _)

theorem runningMax_le {f : Nat → Nat} {b m : Nat} (h : ∀ a, a ≤ b → f a ≤ m) : runningMax f b ≤ m := by
  induction b with
  | zero => exact h 0 (Nat.le_refl 0)
  | succ b ih =>
    rw [runningMax]
    exact Nat.max_le.2 ⟨ih fun a ha => h a (by omega), h (b + 1) (Nat.le_refl _)⟩

/-- An index map that meets R151 at two extents is what `lawfulNn` makes of it. -/
theorem lawfulNn_of_laws {raw : (d dn sn : Nat) → Nat} {dn sn : Nat} (range : ∀ d, d < dn → raw d dn sn < sn)
    (identity : dn = sn → ∀ d, d < dn → raw d dn sn = d)
    (monotone : ∀ d1 d2, d1 ≤ d2 → d2 < dn → raw d1 dn sn ≤ raw d2 dn sn) {d : Nat} (hd : d < dn) :
    lawfulNn raw d dn sn = raw d dn sn := by
  unfold lawfulNn
  split
  · rename_i h
    exact (identity h d hd).symm
  · have cut : ∀ a, a ≤ d → min (raw a dn sn) (sn - 1) = raw a dn sn := fun a ha => by
      have := range a (by omega)
      omega
    apply Nat.le_antisymm
    · exact runningMax_le fun a ha => by
        rw [cut a ha]
        exact monotone a d ha hd
    · have h := le_runningMax (fun i => min (raw i dn sn) (sn - 1)) (Nat.le_refl d)
      simpa only [cut d (Nat.le_refl d)] using h

/-- A combination that meets R197 on a list of bits is what `unanimousOr` makes of it. -/
theorem unanimousOr_of_laws {f : List Byte → Byte} {bits : List Byte} (hne : bits ≠ [])
    (bit : f bits = 0#8 ∨ f bits = 1#8) (unanimous : ∀ b, (∀ b' ∈ bits, b' = b) → f bits = b) :
    unanimousOr (fun l => f l == 1#8) bits = f bits := by
  cases bits with
  | nil => exact absurd rfl hne
  | cons b rest =>
    simp only [unanimousOr]
    split
    · rename_i h
      refine (unanimous b fun b' hb => ?_).symm
      rcases List.mem_cons.1 hb with rfl | hb
      · rfl
      · simpa using List.all_eq_true.1 h b' hb
    · rcases bit with h | h <;> simp [h]

theorem mem_ofFunction_rows {f : (d dn sn : Nat) → Nat} {extent : Nat} {r : NnRow}
    (h : r ∈ (List.range extent).flatMap fun a => (List.range extent).map fun b =>
      ({ dn := a + 1, sn := b + 1, indices := (List.range (a + 1)).map fun d => f d (a + 1) (b + 1) } : NnRow)) :
    r.indices = (List.range r.dn).map fun d => f d r.dn r.sn := by
  simp only [List.mem_flatMap, List.mem_map] at h
  obtain ⟨a, -, b, -, rfl⟩ := h
  rfl

/-- The table of a map holds its values. -/
theorem tableNn_ofFunction (f : (d dn sn : Nat) → Nat) {extent d dn sn : Nat} (hd : d < dn) (hdn : dn ≤ extent)
    (hs : 1 ≤ sn) (hsn : sn ≤ extent) {rows : List NnRow} (h : NnMap.ofFunction extent f = .given rows) :
    tableNn rows d dn sn = f d dn sn := by
  obtain rfl := (NnMap.given.inj h).symm
  unfold tableNn
  split
  · rename_i r hr
    have hmem := List.mem_of_find?_eq_some hr
    have hkey := List.find?_some hr
    simp only [Bool.and_eq_true, beq_iff_eq] at hkey
    rw [mem_ofFunction_rows hmem, hkey.1, hkey.2]
    simp [hd]
  · rename_i hr
    have hrow := List.find?_eq_none.1 hr
      { dn := dn, sn := sn, indices := (List.range dn).map fun d => f d dn sn } (by
        simp only [List.mem_flatMap, List.mem_map, List.mem_range]
        exact ⟨dn - 1, by omega, sn - 1, by omega, by
          rw [Nat.sub_add_cancel (by omega : 1 ≤ dn), Nat.sub_add_cancel hs]⟩)
    simp at hrow

/-- The lists of `n` bits. -/
theorem mem_bitLists {n : Nat} {bits : List Byte} :
    bits ∈ bitLists n ↔ bits.length = n ∧ ∀ b ∈ bits, b = 0#8 ∨ b = 1#8 := by
  induction n generalizing bits with
  | zero =>
    simp only [bitLists, List.mem_singleton, List.length_eq_zero_iff]
    constructor
    · rintro rfl
      simp
    · exact fun h => h.1
  | succ n ih =>
    simp only [bitLists, List.mem_flatMap, List.mem_cons, List.not_mem_nil, or_false]
    constructor
    · rintro ⟨rest, hrest, rfl | rfl⟩ <;> obtain ⟨h1, h2⟩ := ih.1 hrest <;> simp [h1] <;> exact h2
    · rintro ⟨hl, hb⟩
      cases bits with
      | nil => simp at hl
      | cons b rest =>
        refine ⟨rest, ih.2 ⟨by simpa using hl, fun b' h => hb b' (List.mem_cons_of_mem _ h)⟩, ?_⟩
        rcases hb b List.mem_cons_self with rfl | rfl
        · exact .inl rfl
        · exact .inr rfl

end Sys2Proof.Laws
end

