-- ==== Sys2Proof/Tests/Slice0.lean ====
section
/-! SUPPORT. Tests whose expected values are the spec's own (its tables and test vectors, cited at each), and for every
obligation with hypotheses a witness that meets them. -/

namespace Sys2Proof.Tests

open Sys2Proof.Machine

/-! Helpers. -/

/-- A descriptor, written in the order of the assembler: `@base[h x w x c]`. -/
def img (base h w c : Nat) : Desc := { base := base, h := h, w := w, c := c }

/-- Bytes from an address up. -/
def bytesAt (a : Nat) (bs : List Nat) : List Host.Cell := bs.zipIdx.map fun p => (a + p.2, BitVec.ofNat 8 p.1)

/-- Words from an address up, each little-endian (R73). -/
def wordsAt (a : Nat) (ws : List Nat) : List Host.Cell := bytesAt a (ws.flatMap fun w => [w, w / 256, w / 65536, w / 16777216])

/-- A machine in a run, at address 0 of a memory with these bytes written. -/
def running (memSize : Nat) (cells : List Host.Cell) : State :=
  { State.resetOf { Config.default with memSize := memSize } with run := .busy, mem := Memory.putAll [] cells }

/-- The state of an outcome. -/
def stateOf (o : Host.Outcome State Fault Refusal) : Option State :=
  match o with
  | .next t => some t
  | _ => none

/-- What a next state shows: STATUS, CUR, COUNT, and the written bytes from an address up. -/
def shows (o : Host.Outcome State Fault Refusal) (a n : Nat) : Option (Nat × Nat × Nat × List (Option Nat)) :=
  (stateOf o).map fun t => (t.statusWord.toNat, t.cur.toNat, t.count.toNat,
    (List.range n).map fun k => (Memory.look t.mem (a + k)).map BitVec.toNat)

/-! Well-formedness: one ill-formed term for each check, refused. -/

theorem test_wellFormed_base : (Instr.resize (img (2 ^ 32) 1 1 1) (img 0 1 1 1)).wellFormed = false := by decide
theorem test_wellFormed_h : (Instr.encode .direct (img 0 1 1 1) (img 0 65536 1 1) (img 0 1 1 1)).wellFormed = false := by decide
theorem test_wellFormed_w : (Instr.extract .direct (img 0 1 1 1) (img 0 1 1 1) (img 0 1 65536 1)).wellFormed = false := by decide
theorem test_wellFormed_c : (Instr.binarize 0 (img 0 1 1 8) (img 0 1 1 1)).wellFormed = false := by decide
theorem test_wellFormed_threshold : (Instr.binarize 256 (img 0 1 1 1) (img 0 1 1 1)).wellFormed = false := by decide

/-! Decoding: the command words of the spec's programs P1 to P3 (95_test_vectors.md), and its header words (R125). -/

/-- The instruction the decoder reads from command words. -/
def decodedWords (ws : List Nat) : Option Instr :=
  decodeTableWord 256 (leNat (ws.flatMap fun w => leBytes 4 w))

theorem test_decode_end : decodedWords [0x00000000, 0, 0, 0, 0, 0, 0, 0] = some .endRun := by decide

theorem test_decode_encode :
    decodedWords [0x00CB0021, 0x00000240, 0x00030004, 0x00000220, 0x00030004, 0x00000280, 0x00030004, 0x00000000] =
      some (.encode .negatedBitwiseAdd (img 0x240 3 4 3) (img 0x220 3 4 1) (img 0x280 3 4 3)) := by decide

theorem test_decode_decode :
    decodedWords [0x005B0022, 0x00000280, 0x00030004, 0x00000240, 0x00030004, 0x000002C0, 0x00030004, 0x00000000] =
      some (.decode .negatedBitwiseAdd (img 0x280 3 4 3) (img 0x240 3 4 3) (img 0x2C0 3 4 1)) := by decide

theorem test_decode_resize :
    decodedWords [0x00410003, 0x000002C0, 0x00030004, 0x00000000, 0x00000000, 0x000002D0, 0x00020003, 0x00000000] =
      some (.resize (img 0x2C0 3 4 1) (img 0x2D0 2 3 1)) := by decide

theorem test_decode_binarize :
    decodedWords [0x00417F04, 0x00000200, 0x00020003, 0x00000000, 0x00000000, 0x00000210, 0x00020003, 0x00000000] =
      some (.binarize 127 (img 0x200 2 3 1) (img 0x210 2 3 1)) := by decide

theorem test_decode_embed :
    decodedWords [0x00490005, 0x00000100, 0x00040004, 0x00000080, 0x00020002, 0x00000140, 0x00040004, 0x00000000] =
      some (.embed .direct (img 0x100 4 4 1) (img 0x80 2 2 1) (img 0x140 4 4 1)) := by decide

theorem test_decode_extract :
    decodedWords [0x005B0026, 0x00000280, 0x00030004, 0x00000240, 0x00030004, 0x000002F0, 0x00020003, 0x00000000] =
      some (.extract .negatedBitwiseAdd (img 0x280 3 4 3) (img 0x240 3 4 3) (img 0x2F0 2 3 1)) := by decide

/-- The encoder writes the header words of R125. -/
theorem test_encode_headers :
    (encode (.encode .bitwiseAdd (img 0 1 1 1) (img 0 1 1 1) (img 0 1 1 1))).w0 = 0x00490011#32 ∧
    (encode (.decode .bitwiseAdd (img 0 1 1 1) (img 0 1 1 1) (img 0 1 1 1))).w0 = 0x00490012#32 ∧
    (encode (.resize (img 0 1 1 1) (img 0 1 1 1))).w0 = 0x00410003#32 ∧
    (encode (.binarize 127 (img 0 1 1 1) (img 0 1 1 1))).w0 = 0x00417F04#32 ∧
    (encode (.embed .direct (img 0 1 1 1) (img 0 1 1 1) (img 0 1 1 1))).w0 = 0x00490005#32 ∧
    (encode (.extract .direct (img 0 1 1 1) (img 0 1 1 1) (img 0 1 1 1))).w0 = 0x00490006#32 := by decide

/-! One step of each command, on the spec's programs (95_test_vectors.md). -/

/-- P1, END: STATUS 2, CUR and COUNT kept. -/
theorem test_step_end : shows (step (running 0x200 (wordsAt 0 (List.replicate 8 0)))) 0 0 = some (2, 0, 0, []) := by decide

/-- P2, ENCODE.BITWISE_ADD (Scenario C): `00 03`. -/
theorem test_step_encode :
    shows (step (running 0x200 (bytesAt 0x100 [1, 2] ++ bytesAt 0x108 [255, 255] ++
      wordsAt 0 [0x00490011, 0x100, 0x00010002, 0x108, 0x00010002, 0x110, 0x00010002, 0]))) 0x110 2 =
      some (1, 32, 1, [some 0, some 3]) := by decide

/-- P2, DECODE.BITWISE_ADD (Scenario C): `01 01`. -/
theorem test_step_decode :
    shows (step (running 0x200 (bytesAt 0x100 [1, 2] ++ bytesAt 0x110 [0, 3] ++
      wordsAt 0 [0x00490012, 0x110, 0x00010002, 0x100, 0x00010002, 0x118, 0x00010002, 0]))) 0x118 2 =
      some (1, 32, 1, [some 1, some 1]) := by decide

/-- P3, RESIZE 2 x 3 to 3 x 4 (row map 0 0 1, column map 0 0 1 2); the last source sample is 254, to tell the rows apart. -/
theorem test_step_resize :
    shows (step (running 0x400 (bytesAt 0x210 [0, 255, 255, 0, 255, 254] ++
      wordsAt 0 [0x00410003, 0x210, 0x00020003, 0, 0, 0x220, 0x00030004, 0]))) 0x220 12 =
      some (1, 32, 1, [some 0, some 0, some 255, some 255, some 0, some 0, some 255, some 255,
        some 0, some 0, some 255, some 254]) := by decide

/-- P3, BINARIZE #127. -/
theorem test_step_binarize :
    shows (step (running 0x400 (bytesAt 0x200 [10, 200, 130, 127, 128, 255] ++
      wordsAt 0 [0x00417F04, 0x200, 0x00020003, 0, 0, 0x210, 0x00020003, 0]))) 0x210 6 =
      some (1, 32, 1, [some 0, some 255, some 255, some 0, some 255, some 255]) := by decide

/-- P1, EMBED.DIRECT (Scenario A) with a carrier of 2 rows: rows 0 and 2 of the scenario's output. -/
theorem test_step_embed :
    shows (step (running 0x200 (bytesAt 0x80 [255, 0, 0, 255] ++ bytesAt 0x100 (List.replicate 8 200) ++
      wordsAt 0 [0x00490005, 0x100, 0x00020004, 0x80, 0x00020002, 0x140, 0x00020004, 0]))) 0x140 8 =
      some (1, 32, 1, [some 201, some 201, some 200, some 200, some 200, some 200, some 201, some 201]) := by decide

/-- P1, EXTRACT.DIRECT (Scenario A): `FF 00 00 FF`. -/
theorem test_step_extract :
    shows (step (running 0x200 (bytesAt 0x100 (List.replicate 16 200) ++
      bytesAt 0x140 [201, 201, 200, 200, 201, 201, 200, 200, 200, 200, 201, 201, 200, 200, 201, 201] ++
      wordsAt 0 [0x00490006, 0x140, 0x00040004, 0x100, 0x00040004, 0x180, 0x00020002, 0]))) 0x180 4 =
      some (1, 32, 1, [some 255, some 0, some 0, some 255]) := by decide

/-! Faults, from TV-FAULT. The STATUS word is 3 + 256 * FCODE. -/

/-- The STATUS word after one step of the command at 0 in a memory of 0x200 bytes (the set-up of TV-FAULT). -/
def faultRow (ws : List Nat) : Nat := ((stateOf (step (running 0x200 (wordsAt 0 ws)))).map fun t => t.statusWord.toNat).getD 0

/-- FV2 (ILLEGAL_OPCODE before RESERVED), FV3 and FV4 (RESERVED), FV6 (BAD_METHOD before BAD_CHANNELS). -/
theorem test_faults_decode :
    [faultRow [0x000000CF, 0x100, 0x10004, 0x110, 0x10004, 0x120, 0x10004, 0],
     faultRow [0x00000000, 0x100, 0x10004, 0x110, 0x10004, 0x120, 0x10004, 1],
     faultRow [0x02000000, 0x100, 0x10004, 0x110, 0x10004, 0x120, 0x10004, 0],
     faultRow [0x00590031, 0x100, 0x10004, 0x110, 0x10004, 0x120, 0x10004, 0]] = [0x103, 0x203, 0x203, 0x303] := by
  decide

/-- FV8 (ENCODE, CB = 3), FV14 (RESIZE, BAD_DIM before BOUNDS), FV17 (BINARIZE, SHAPE before BOUNDS). -/
theorem test_faults_checks :
    [faultRow [0x00590001, 0x100, 0x10004, 0x110, 0x10004, 0x120, 0x10004, 0],
     faultRow [0x00410003, 0xFFFFFF00, 0x10000, 0x110, 0x10004, 0x120, 0x10004, 0],
     faultRow [0x00410004, 0x1FF, 0x10004, 0x110, 0x10004, 0x120, 0x20004, 0]] = [0x403, 0x503, 0x603] := by decide

/-- FV23 (BINARIZE, BOUNDS, no wrap-around), FV27 (ENCODE, D overlaps B only), FV5 (END, every other field ignored). -/
theorem test_faults_regions :
    [faultRow [0x00410004, 0xFFFFFFFF, 0x10004, 0x110, 0x10004, 0x120, 0x10004, 0],
     faultRow [0x00490001, 0x100, 0x10004, 0x110, 0x10004, 0x112, 0x10004, 0],
     faultRow [0x01474D30, 0xFFFFFFFF, 0xFFFFFFFF, 0xFFFFFFFF, 0xFFFFFFFF, 0xFFFFFFFF, 0xFFFFFFFF, 0]] =
      [0x703, 0x803, 2] := by decide

/-- FV30 and FV31: START at 0x002 faults ALIGN; a fetch at 0x1F0 faults FETCH. -/
theorem test_faults_fetch :
    ((State.resetOf { Config.default with memSize := 0x200 }).writeReg 0x0C 2#32 |>.writeReg 0x04 1#32).statusWord = 0xA03#32 ∧
    shows (step { running 0x200 [] with cur := 0x1F0#32 }) 0 0 = some (0x903, 0x1F0, 0, []) := by decide

/-! The per-sample functions: rows of TV-ENC, TV-DEC, TV-NN, TV-BIN. -/

theorem test_penc :
    penc .direct 201#8 254#8 = 200#8 ∧ penc .bitwiseAdd 201#8 255#8 = 200#8 ∧ penc .negatedBitwiseAdd 0#8 0#8 = 1#8 ∧
    penc .bitwiseAdd 255#8 1#8 = 254#8 ∧ penc .negatedBitwiseAdd 201#8 255#8 = 201#8 := by decide

theorem test_pdec :
    pdec .direct 200#8 201#8 = 0#8 ∧ pdec .bitwiseAdd 200#8 201#8 = 1#8 ∧ pdec .negatedBitwiseAdd 0#8 0#8 = 1#8 ∧
    pdec .negatedBitwiseAdd 201#8 201#8 = 1#8 := by decide

theorem test_nn :
    (List.range 5).map (fun d => nn .floorMap d 5 3) = [0, 0, 1, 1, 2] ∧
    (List.range 3).map (fun d => nn .floorMap d 3 5) = [0, 1, 3] ∧
    (List.range 2).map (fun d => nn .floorMap d 2 8) = [0, 4] := by decide

/-- G-7 (91_not_in_source.md): the centre-aligned map, given as NN_MAP, gives 2 at `Dn = 2, Sn = 3, d = 1`. -/
theorem test_nn_given :
    nn (.ofFunction 3 fun d dn sn => (2 * d + 1) * sn / (2 * dn)) 1 2 3 = 2 ∧ nn .floorMap 1 2 3 = 1 ∧
    nn (.given [{ dn := 2, sn := 3, indices := [0, 2] }]) 1 2 3 = 2 := by decide

/-- A majority of three channels, given as COMBINE; unanimity holds whatever is given (R197). -/
theorem test_combine_given :
    let k := Combine.ofFunction 3 fun bits => if bits.length < 2 * bits.count 1#8 then 1#8 else 0#8
    combine k [0#8, 1#8, 1#8] = 1#8 ∧ combine k [1#8, 0#8, 0#8] = 0#8 ∧ combine .channel0 [0#8, 1#8, 1#8] = 0#8 ∧
    combine (.given []) [1#8, 1#8, 1#8] = 1#8 := by decide

theorem test_bin :
    bin 0 1#8 = 255#8 ∧ bin 127 127#8 = 0#8 ∧ bin 127 128#8 = 255#8 ∧ bin 255 255#8 = 0#8 ∧ bin 254 255#8 = 255#8 := by
  decide

/-! The host's side: TV-REG. -/

/-- RV1: the registers after reset. -/
theorem test_registers_after_reset :
    ([0x00, 0x04, 0x08, 0x0C, 0x10, 0x14].map fun o => (State.reset.readReg o).toNat) = [0x4C534231, 0, 0, 0, 0, 0] := by
  decide

/-- RV5: START wins over CLEAR; RV9: a write of all ones starts a run and CTRL then reads 4. -/
theorem test_ctrl_start :
    (State.writeReg { State.reset with run := .fault, fcode := .aliasing, cmdptr := 0x40#32, count := 7#32 } 0x04 3#32
      |> fun t => (t.statusWord.toNat, t.count.toNat, t.cur.toNat)) = (1, 0, 0x40) ∧
    (State.writeReg State.reset 0x04 0xFFFFFFFF#32 |> fun t => (t.statusWord.toNat, (t.readReg 0x04).toNat)) = (1, 4) := by
  decide

/-- RV3 and RV4: `irq` in DONE with IE; CLEAR ends it and keeps CUR and COUNT. -/
theorem test_ctrl_clear :
    let s : State := { State.reset with run := .done, ie := true, cur := 0x40#32, count := 2#32 }
    s.irq = true ∧ ((s.writeReg 0x04 6#32).irq, (s.writeReg 0x04 6#32).statusWord, (s.writeReg 0x04 6#32).cur.toNat,
      (s.writeReg 0x04 6#32).count.toNat) = (false, 0#32, 0x40, 2) := by decide

/-- A memory write keeps the addresses rising, and replaces a byte written before. -/
theorem test_memory_canonical :
    Memory.putAll [] [(5, 1#8), (2, 2#8), (5, 3#8)] = [(2, 2#8), (5, 3#8)] := by decide

/-! The assembler: lines of P1, P3 and R124. -/

theorem test_assemble_binarize :
    assembleText "BINARIZE  @0x210[2x3x1], @0x200[2x3x1], #127 ; pre".toList =
      some { w0 := 0x00417F04#32, w1 := 0x200#32, w2 := 0x20003#32, w3 := 0#32, w4 := 0#32, w5 := 0x210#32,
             w6 := 0x20003#32, w7 := 0#32 } := by decide

theorem test_assemble_encode :
    assembleText "ENCODE.NEGATED_BITWISE_ADD  @0x280[3x4x3], @0x240[3x4x3], @0x220[3x4x1]".toList =
      some { w0 := 0x00CB0021#32, w1 := 0x240#32, w2 := 0x30004#32, w3 := 0x220#32, w4 := 0x30004#32, w5 := 0x280#32,
             w6 := 0x30004#32, w7 := 0#32 } := by decide

theorem test_assemble_copy :
    assembleText "COPY @16[2x3x1], @0[2x3x1]".toList = assembleText "RESIZE @16[2x3x1], @0[2x3x1]".toList ∧
    assembleText "COPY @16[2x3x1], @0[3x3x1]".toList = none ∧ assembleText "RESIZE @16[2x3x1], @0[0x3x1]".toList = none := by
  decide

/-! Witnesses: for each obligation with hypotheses, concrete states and operands that meet all of them together. -/

/-- The parameters of the witnesses: MEM_SIZE 0x200, CMAX 4. -/
def cfg1 : Config := { Config.default with memSize := 0x200 }

/-- A machine in a run with the words of one command at 0. -/
def holding (ws : List Nat) : State := running 0x200 (wordsAt 0 ws)

/-- A plain command at 0: BINARIZE #0 of four samples (P4). -/
def binarizing : State :=
  running 0x200 (bytesAt 0x100 [7, 0, 9, 0] ++ wordsAt 0 [0x00410004, 0x100, 0x10004, 0, 0, 0x110, 0x10004, 0])

/-- The program of P4 before its fault: a BINARIZE, then END. -/
def binarizeThenEnd : Memory :=
  Memory.putAll [] (bytesAt 0x100 [7, 0, 9, 0] ++
    wordsAt 0 [0x00410004, 0x100, 0x10004, 0, 0, 0x110, 0x10004, 0, 0, 0, 0, 0, 0, 0, 0, 0])

/-- A run of that program as START leaves it. -/
def started : State := { running 0x200 [] with mem := binarizeThenEnd, startMem := binarizeThenEnd }

/-- With one channel, with CMAX channels, and with the destination ending exactly at MEM_SIZE. -/
theorem witness_EncodeCompletesAndEmbedsEverySample :
    EncodeLegal cfg1 (img 0x100 1 4 1) (img 0x110 1 4 1) (img 0x120 1 4 1) ∧
    EncodeLegal cfg1 (img 0 2 3 4) (img 24 2 3 1) (img 0x1E8 2 3 4) := by decide

theorem witness_DecodeCompletesAndRecoversEveryBit :
    DecodeLegal cfg1 (img 0x100 1 4 1) (img 0x100 1 4 1) (img 0x120 1 4 1) ∧
    DecodeLegal cfg1 (img 0 2 3 4) (img 24 2 3 4) (img 0x1FA 2 3 1) := by decide

theorem witness_ResizeCompletesAndResamples :
    ResizeLegal cfg1 (img 0x100 2 3 1) (img 0x106 3 4 1) ∧ ResizeLegal cfg1 (img 0 7 9 1) (img 0x1FF 1 1 1) := by decide

theorem witness_BinarizeCompletesAndThresholds :
    BinarizeLegal cfg1 (img 0x100 1 4 1) (img 0x104 1 4 1) ∧ BinarizeLegal cfg1 (img 0 2 3 4) (img 0x1E8 2 3 4) := by decide

theorem witness_EmbedCompletesAndEmbedsTheResampledWatermark :
    EmbedLegal cfg1 (img 0x100 4 4 1) (img 0x80 2 2 1) (img 0x140 4 4 1) ∧
    EmbedLegal cfg1 (img 0 2 3 4) (img 24 5 7 1) (img 0x1E8 2 3 4) := by decide

theorem witness_ExtractCompletesAndRecoversTheBitmap :
    ExtractLegal cfg1 (img 0x140 4 4 1) (img 0x100 4 4 1) (img 0x180 2 2 1) ∧
    ExtractLegal cfg1 (img 0 2 3 4) (img 24 2 3 4) (img 0x1D9 3 13 1) := by decide

/-- Each clause is the first broken one somewhere: channels at CMAX + 1, no columns, other sizes, one byte too far, one
byte shared. -/
theorem witness_TwoSourceCommandsFaultInOrder :
    let a := img 0x100 1 4 1
    let b := img 0x110 1 4 1
    let ok (x : Desc) : Prop := x.ChannelsLegal cfg1
    let outside (x : Desc) : Prop := x.Outside cfg1
    (¬ ok (img 0x100 1 4 5) ∧ ¬ ok (img 0x100 1 4 0) ∧ (img 0x110 1 4 3).c ≠ 1) ∧
    (ok a ∧ (img 0x120 1 0 1).NoDim) ∧
    (ok a ∧ ¬ a.NoDim ∧ ¬ b.NoDim ∧ ¬ (img 0x120 2 4 1).SameSize a ∧ b.SameSize a) ∧
    (b.SameSize a ∧ ¬ outside a ∧ ¬ outside (img 0x1FC 1 4 1) ∧ outside (img 0x1FD 1 4 1) ∧ ¬ (img 0x1FD 1 4 1).NoDim) ∧
    (¬ outside (img 0x103 1 4 1) ∧ (img 0x103 1 4 1).Meets a ∧ (img 0x103 1 4 1).SameSize a) ∧
    ((img 0x113 1 4 1).Meets b ∧ ¬ (img 0x114 1 4 1).Meets b) := by
  refine ⟨by decide, by decide, by decide, by decide, ⟨by decide, ⟨0x103, by decide⟩, by decide⟩, ⟨0x113, by decide⟩, ?_⟩
  rw [← Desc.overlaps_iff]
  decide

theorem witness_OneSourceCommandsFaultInOrder :
    let a := img 0x100 1 4 1
    ((img 0x120 1 4 2).c ≠ 1 ∧ ¬ (img 0x120 1 4 5).ChannelsLegal cfg1) ∧
    (a.ChannelsLegal cfg1 ∧ (img 0x120 0 4 1).NoDim) ∧
    (¬ a.NoDim ∧ ¬ (img 0x120 2 4 1).NoDim ∧ ¬ (img 0x120 2 4 1).SameSize a) ∧
    (¬ a.Outside cfg1 ∧ (img 0x1FD 1 4 1).Outside cfg1 ∧ ¬ (img 0x1FC 1 4 1).Outside cfg1) ∧
    (img 0x103 1 4 1).Meets a :=
  ⟨by decide, by decide, by decide, by decide, ⟨0x103, by decide⟩⟩

/-- OPC 7; RSV0, RSV1 and W7 set, each alone; METH 3 in a command that uses it, and in one that does not. -/
theorem witness_UndecodableCommandsFaultInOrder :
    let header (ws : List Nat) : Nat × Nat := ((holding ws).memRead 0 4, (holding ws).memRead 28 4)
    (holding []).inbox = [] ∧ (holding []).run = .busy ∧ (holding []).cur.toNat + 32 ≤ (holding []).cfg.memSize ∧
    header [0x00000007, 0, 0, 0, 0, 0, 0, 0] = (7, 0) ∧
    header [0x00000040, 0, 0, 0, 0, 0, 0, 0] = (0x40, 0) ∧
    header [0x02000000, 0, 0, 0, 0, 0, 0, 0] = (2 ^ 25, 0) ∧
    header [0x00000000, 0, 0, 0, 0, 0, 0, 1] = (0, 1) ∧
    header [0x00590031, 0, 0, 0, 0, 0, 0, 0] = (0x590031, 0) ∧
    header [0x00410033, 0, 0, 0, 0, 0, 0, 0] = (0x410033, 0) := by decide

/-- CUR one byte too far. -/
theorem witness_FetchOutsideTheMemoryFaults :
    let s : State := { running 0x200 [] with cur := 0x1E1#32 }
    s.inbox = [] ∧ s.run = .busy ∧ s.cfg.memSize < s.cur.toNat + 32 := by decide

theorem witness_AFaultWritesNothing :
    (holding [7, 0, 0, 0, 0, 0, 0, 0]).run = .busy ∧
    ((stateOf (step (holding [7, 0, 0, 0, 0, 0, 0, 0]))).map fun t => t.run) = some .fault := by decide

/-- With no host move due, and with a host that pauses; CUR at 0 and CUR at the last command that fits. -/
theorem witness_AStepRunsTheDecodedCommand :
    let s := binarizing
    let last : State := { running 0x200 (wordsAt 0x1E0 (List.replicate 8 0)) with cur := 0x1E0#32, inbox := [.pause] }
    (s.run = .busy ∧ s.inbox = [] ∧ s.cur.toNat + 32 ≤ s.cfg.memSize ∧
      (decodeBytes ((List.range 32).map fun k => s.byte (s.cur.toNat + k))).1 =
        .instr (.binarize 0 (img 0x100 1 4 1) (img 0x110 1 4 1))) ∧
    (last.run = .busy ∧ last.inbox = .pause :: [] ∧ last.cur.toNat + 32 ≤ last.cfg.memSize ∧
      (decodeBytes ((List.range 32).map fun k => last.byte (last.cur.toNat + k))).1 = .instr .endRun) := by decide

theorem witness_CommandWordsAreLittleEndian :
    binarizing.commandWord 1 = 0x100#32 ∧ binarizing.byte (binarizing.cur.toNat + 4 * 1 + 1) = 0x01#8 := by decide

theorem witness_TheSequencerRestsUnlessBusy :
    State.reset.inbox = [] ∧ State.reset.run ≠ .busy := by decide

/-- A command that completes, one that ends the run, one that faults. -/
theorem witness_ABusyStepAdvancesOrEndsTheRun :
    binarizing.cfg.Legal ∧ binarizing.inbox = [] ∧ binarizing.run = .busy ∧
    ((stateOf (step binarizing)).map fun t => (t.run, t.count)) = some (.busy, 1#32) ∧
    ((stateOf (step (holding (List.replicate 8 0)))).map fun t => t.run) = some .done ∧
    ((stateOf (step (holding [7, 0, 0, 0, 0, 0, 0, 0]))).map fun t => t.run) = some .fault := by decide

/-- The shortest and the longest bound: CUR past the last command that fits, and CUR at 0. -/
theorem witness_EveryRunEnds :
    (running 0x200 []).cfg.Legal ∧ (running 0x200 []).inbox = [] ∧ (running 0x200 []).run = .busy ∧
    (0x200 - ({ running 0x200 [] with cur := 0x200#32 } : State).cur.toNat) / 32 + 1 = 1 ∧
    (0x200 - (running 0x200 []).cur.toNat) / 32 + 1 = 17 := by decide

/-- END; START; START with CMDPTR not aligned; CLEAR; reset. -/
theorem witness_StateChangesOnlyAsListed :
    let runOf (s : State) : Option (RunState × FCode) := (stateOf (step s)).map fun t => (t.run, t.fcode)
    let host (r : RunState) (m : HostMove) : State := { State.reset with run := r, inbox := [m] }
    [runOf (holding (List.replicate 8 0)), runOf (host .idle (.writeReg 4 4 1#32)),
     runOf { host .idle (.writeReg 4 4 1#32) with cmdptr := 2#32 }, runOf (host .done (.writeReg 4 4 2#32)),
     runOf (host .done .reset)] =
      [some (.done, .none), some (.busy, .none), some (.fault, .align), some (.idle, .none), some (.idle, .none)] := by
  decide

/-- The invariant of a machine in a run with a command in memory, whose step answers a next state. -/
theorem witness_EveryStepKeepsTheInvariant :
    binarizing.Inv ∧ (stateOf (step binarizing)).isSome = true :=
  ⟨⟨by decide, by decide, by decide, by decide, by decide, by decide, by decide⟩, by decide⟩

/-- The legal extremes of the parameters (R8). -/
theorem witness_ResetMeetsTheInvariant :
    ({ Config.default with memSize := 32, cmax := 1 } : Config).Legal ∧
    ({ Config.default with memSize := 2 ^ 32 - 32, cmax := 7 } : Config).Legal := by decide

theorem witness_ParametersNeverChange : (stateOf (step binarizing)).isSome = true := by decide

theorem witness_SamplesTileTheRegion :
    (img 0x100 2 3 4).Has 1 2 3 ∧ (img 0x100 2 3 4).covers 0x117 = true ∧ (img 0x100 2 3 4).covers 0x118 = false ∧
    (img 0x100 2 3 4).addr 1 2 3 = 0x117 := by decide

theorem witness_MemReadReadsBackMemWrite : (0xFF < 0x100 ∨ 0x100 + 4 ≤ 0xFF) ∧ (0x104 < 0x100 ∨ 0x100 + 4 ≤ 0x104) := by
  decide

theorem witness_SourcesAreNeverWritten :
    (stateOf (exec (.binarize 0 (img 0x100 1 4 1) (img 0x110 1 4 1)) binarizing)).isSome = true ∧
    img 0x100 1 4 1 ∈ (Instr.binarize 0 (img 0x100 1 4 1) (img 0x110 1 4 1)).sources ∧
    (img 0x100 1 4 1).covers 0x103 = true := by decide

/-- The samples in reverse order. -/
theorem witness_SampleOrderDoesNotMatter :
    Memory.wf binarizing.mem ∧ (Instr.binarize 0 (img 0x100 1 4 1) (img 0x110 1 4 1)).dest = some (img 0x110 1 4 1) ∧
    ((stateOf (exec (.binarize 0 (img 0x100 1 4 1) (img 0x110 1 4 1)) binarizing)).map fun t => t.count) =
      some (binarizing.count + 1#32) ∧
    [(0, 3, 0), (0, 2, 0), (0, 1, 0), (0, 0, 0)].Perm (img 0x110 1 4 1).coords := by decide

/-- Every field at its largest value. -/
theorem witness_DecodeInvertsEncode :
    (Instr.encode .negatedBitwiseAdd (img (2 ^ 32 - 1) 65535 65535 7) (img 0 0 0 0) (img 1 1 65535 7)).wellFormed = true ∧
    (Instr.binarize 255 (img 0 65535 1 7) (img (2 ^ 32 - 1) 1 65535 7)).wellFormed = true := by decide

theorem witness_DecodedInstructionsAreWellFormed :
    decodeBytes (List.replicate 32 0#8 ++ [1#8]) = (.instr .endRun, [1#8]) := by decide

/-- FV5 beside END, FV7 beside RESIZE, a BINARIZE with METH and CB set, an ENCODE with THR set. -/
theorem witness_IgnoredFieldsHaveNoEffect :
    (0x01474D30#32 &&& 0xF#32 = 0x0#32 ∧ 0x01474D30#32 &&& 0xFE0000CF#32 = 0#32 &&& 0xFE0000CF#32) ∧
    (0x00410033#32 &&& 0xF#32 = 0x3#32 ∧ 0x00410033#32 &&& 0xFFC700CF#32 = 0x00410003#32 &&& 0xFFC700CF#32) ∧
    (0x00797F34#32 &&& 0xF#32 = 0x4#32 ∧ 0x00797F34#32 &&& 0xFFC7FFCF#32 = 0x00417F04#32 &&& 0xFFC7FFCF#32) ∧
    (0x0049FF11#32 &&& 0xF#32 ∈ [0x1#32, 0x2#32, 0x5#32, 0x6#32] ∧
      0x0049FF11#32 &&& 0xFFFF00FF#32 = 0x00490011#32 &&& 0xFFFF00FF#32) := by decide

theorem witness_AssembledLinesDecodeBack :
    (AsmLine.copy (img 16 65535 1 1) (img 0 65535 1 1)).expand = some (.resize (img 0 65535 1 1) (img 16 65535 1 1)) ∧
    asmInstrOk (.resize (img 0 65535 1 1) (img 16 65535 1 1)) = true ∧
    asmInstrOk (.resize (img 0 0 1 1) (img 16 1 1 1)) = false := by decide

theorem witness_CopyCopiesASingleChannelImage :
    (assemble (.copy (img 0x106 2 3 1) (img 0x100 2 3 1))).isSome = true ∧
    ResizeLegal cfg1 (img 0x100 2 3 1) (img 0x106 2 3 1) := by decide

theorem witness_APlacedWordRunsNext :
    State.reset.cfg.Legal ∧ decodeTableWord 32 0x00CB0021 =
      some (.encode .negatedBitwiseAdd (img 0 0 0 3) (img 0 0 0 1) (img 0 0 0 3)) := by decide

/-- The four columns of the tables of R202 and R204. -/
theorem witness_PixelEncodeOutputLsbByMethod :
    (lsb 200#8 = 0#8 ∧ wb 254#8 = 0#8) ∧ (lsb 200#8 = 0#8 ∧ wb 255#8 = 1#8) ∧
    (lsb 201#8 = 1#8 ∧ wb 254#8 = 0#8) ∧ (lsb 201#8 = 1#8 ∧ wb 255#8 = 1#8) := by decide

theorem witness_PixelDecodeTruthTable :
    (lsb 200#8 = 0#8 ∧ lsb 254#8 = 0#8) ∧ (lsb 200#8 = 0#8 ∧ lsb 255#8 = 1#8) ∧
    (lsb 201#8 = 1#8 ∧ lsb 254#8 = 0#8) ∧ (lsb 201#8 = 1#8 ∧ lsb 255#8 = 1#8) := by decide

theorem witness_BinarizerThreshold : 127 < (128#8).toNat ∧ (127#8).toNat ≤ 127 ∧ 254 ≤ 254 := by decide

theorem witness_IndexMapsMeetTheirLaws : 4 < 5 ∧ 1 ≤ 3 ∧ 0 ≤ 4 := by decide

theorem witness_DefaultIndexMapAtIntegerRatios : 1 ≤ 4 ∧ 1 ≤ 2 ∧ 7 < 4 * 2 ∧ 1 < 2 := by decide

theorem witness_CombinationsMeetTheirLaws :
    [1#8, 0#8, 1#8] ≠ [] ∧ (∀ b ∈ [1#8, 0#8, 1#8], b = 0#8 ∨ b = 1#8) ∧ (∀ b ∈ [1#8, 1#8], b = 1#8) := by decide

theorem witness_EmbeddingPerturbsOnlyTheLowestBit :
    EmbedLegal cfg1 (img 0 2 3 4) (img 24 5 7 1) (img 0x1E8 2 3 4) ∧ (img 0x1E8 2 3 4).Has 1 2 3 ∧
    EncodeLegal cfg1 (img 0 2 3 4) (img 24 2 3 1) (img 0x1E8 2 3 4) := by decide

/-- P3's ENCODE and DECODE: three channels. -/
theorem witness_PlaneRoundTrip :
    let p : Config := { Config.default with memSize := 0x400 }
    EncodeLegal p (img 0x240 3 4 3) (img 0x220 3 4 1) (img 0x280 3 4 3) ∧
    DecodeLegal p (img 0x280 3 4 3) (img 0x240 3 4 3) (img 0x2C0 3 4 1) := by decide

/-- P3's carrier with its 2 x 3 watermark. -/
theorem witness_EmbedExtractRoundTrip :
    let p : Config := { Config.default with memSize := 0x400 }
    EmbedLegal p (img 0x240 3 4 3) (img 0x210 2 3 1) (img 0x280 3 4 3) ∧
    ExtractLegal p (img 0x280 3 4 3) (img 0x240 3 4 3) (img 0x2F0 2 3 1) ∧
    (img 0x2F0 2 3 1).SameSize (img 0x210 2 3 1) ∧
    (let s := running 0x400 (bytesAt 0x210 [0, 255, 255, 0, 255, 255])
     ∀ v ∈ List.range 2, ∀ x ∈ List.range 3,
       s.sample (img 0x210 2 3 1) v x 0 = 0#8 ∨ s.sample (img 0x210 2 3 1) v x 0 = 255#8) := by decide

/-- P1 (Scenario A): a ratio of 2 on each axis. -/
theorem witness_ExactRecoveryAtIntegerRatios :
    let s := running 0x200 (bytesAt 0x80 [255, 0, 0, 255])
    s.cfg.nnMap = .floorMap ∧ EmbedLegal s.cfg (img 0x100 4 4 1) (img 0x80 2 2 1) (img 0x140 4 4 1) ∧
    ExtractLegal s.cfg (img 0x140 4 4 1) (img 0x100 4 4 1) (img 0x180 2 2 1) ∧
    (img 0x180 2 2 1).SameSize (img 0x80 2 2 1) ∧ 4 = 2 * 2 ∧
    ∀ v ∈ List.range 2, ∀ x ∈ List.range 2,
      s.sample (img 0x80 2 2 1) v x 0 = 0#8 ∨ s.sample (img 0x80 2 2 1) v x 0 = 255#8 := by decide

theorem witness_EmbedEqualsResizeThenEncode :
    let p := img 0x160 4 4 1
    EmbedLegal cfg1 (img 0x100 4 4 1) (img 0x80 2 2 1) (img 0x140 4 4 1) ∧ p.SameSize (img 0x100 4 4 1) ∧ p.c = 1 ∧
    p.Fits cfg1 ∧ p.Apart (img 0x100 4 4 1) ∧ p.Apart (img 0x80 2 2 1) ∧ p.Apart (img 0x140 4 4 1) := by decide

theorem witness_ExtractEqualsItsPrimitives :
    let a := img 0x140 4 4 1
    let b := img 0x100 4 4 1
    let d := img 0x180 2 2 1
    let f := img 0x1A0 4 4 1
    let g := img 0x1C0 2 2 1
    ExtractLegal cfg1 a b d ∧ f.SameSize a ∧ f.c = 1 ∧ f.Fits cfg1 ∧ f.Apart a ∧ f.Apart b ∧ f.Apart d ∧
    g.SameSize d ∧ g.c = 1 ∧ g.Fits cfg1 ∧ g.Apart a ∧ g.Apart b ∧ g.Apart d ∧ g.Apart f := by decide

theorem witness_RegisterReadsReturnTheirRegister :
    (0x14, State.reset.count) ∈ [(0x00, 0x4C534231#32), (0x14, State.reset.count)] := by decide

/-- The first and the last reserved offset. -/
theorem witness_ReservedOffsetsReadZeroAndIgnoreWrites :
    (0x18 ≤ 0x18 ∧ 0x18 ≤ 0x3C ∧ 0x18 % 4 = 0) ∧ (0x18 ≤ 0x3C ∧ 0x3C ≤ 0x3C ∧ 0x3C % 4 = 0) := by decide

theorem witness_RegisterWritesReachOnlyCmdptr : 0x14 ∈ [0x00, 0x08, 0x10, 0x14] := by decide

/-- The five clauses: a run in progress; a start; a start that faults; a clear; a write of IE alone. -/
theorem witness_ControlWriteActsInOrder :
    ((1#32).getLsbD 0 = true ∧ (running 0x200 []).run = .busy) ∧
    ((3#32).getLsbD 0 = true ∧ State.reset.run ≠ .busy ∧ State.reset.cmdptr.toNat % 4 = 0) ∧
    (({ State.reset with cmdptr := 2#32 } : State).cmdptr.toNat % 4 ≠ 0) ∧
    ((2#32).getLsbD 0 = false ∧ (2#32).getLsbD 1 = true ∧ ({ State.reset with run := .done } : State).run = .done) ∧
    ((4#32).getLsbD 0 = false ∧ ¬ ((4#32).getLsbD 1 = true ∧ (State.reset.run = .done ∨ State.reset.run = .fault))) := by
  decide

theorem witness_InterruptLineFollowsItsRule :
    let s : State := { State.reset with run := .done, ie := true }
    s.irq = true ∧ (2#32).getLsbD 0 = false ∧ (2#32).getLsbD 1 = true ∧ (0#32).getLsbD 2 = false ∧
    (stateOf (step { s with inbox := [.writeReg 0x04 4 0#32] })).isSome = true := by decide

theorem witness_ResetGivesEveryRegisterItsValue : State.reset.run ≠ .busy := by decide

/-- Reset while a command is in progress. -/
theorem witness_ResetTearsOnlyTheCommandInProgress :
    step { binarizing with inbox := [.reset] } = .next (State.hostReset { binarizing with inbox := [] }) ∧
    decodeCommand binarizing.fetchCommand = .instr (.binarize 0 (img 0x100 1 4 1) (img 0x110 1 4 1)) :=
  ⟨rfl, by decide⟩

/-- A narrow access, a misaligned one, one past the window. -/
theorem witness_UndefinedHostMovesAreRefused :
    (2 ≠ 4 ∨ 0x00 % 4 ≠ 0 ∨ 0x40 ≤ 0x00) ∧ (4 ≠ 4 ∨ 0x02 % 4 ≠ 0 ∨ 0x40 ≤ 0x02) ∧ (4 ≠ 4 ∨ 0x40 % 4 ≠ 0 ∨ 0x40 ≤ 0x40) ∧
    binarizing.run = .busy := by decide

theorem witness_HostReadsWhatItLastWrote :
    State.reset.run ≠ .busy ∧ 0 < State.reset.cfg.memSize ∧ 2 ^ 32 - 33 < State.reset.cfg.memSize := by decide

/-- No run; a run that does not write the byte; a run that writes it (P4's BINARIZE, then END). -/
theorem witness_HostReadsDuringARunAreBounded :
    0x110 < started.cfg.memSize ∧ State.reset.run ≠ .busy ∧ started.run = .busy ∧ started.runValues 0x100 = [] ∧
    started.runValues 0x110 = [255#8] := by decide

/-- The least and the largest codes of each list. -/
theorem witness_StatusShowsTheCodesOfTheSpec :
    (State.reset.run, 0) ∈ [(RunState.idle, 0), (.fault, 3)] ∧ (State.reset.fcode, 0) ∈ [(FCode.none, 0), (.align, 10)] ∧
    (RunState.fault, 3) ∈ [(RunState.idle, 0), (.fault, 3)] ∧ (FCode.align, 10) ∈ [(FCode.none, 0), (.align, 10)] := by
  decide

/-- At the run's beginning, and after its first command; the byte at 0x110 is written by the command of step 0. -/
theorem witness_RunValuesAreWhatTheRunWrites :
    started.Inv ∧ started.inbox = [] ∧ started.run = .busy ∧ started.count = 0#32 ∧ started.startMem = started.mem ∧
    ((stateOf (Host.Core.run Sys2Proof.core 1 started)).map fun s => s.run) = some .busy ∧
    decodeCommand started.fetchCommand = .instr (.binarize 0 (img 0x100 1 4 1) (img 0x110 1 4 1)) ∧
    (img 0x110 1 4 1).covers 0x110 = true ∧
    ((stateOf (step started)).map fun t => (t.run, Memory.look t.mem 0x110)) = some (.busy, some 255#8) :=
  ⟨⟨by decide, by decide, by decide, by decide, by decide, by decide, by decide⟩, by decide, by decide, by decide,
    by decide, by decide, by decide, by decide, by decide⟩

/-- The centre-aligned map of G-7, which meets R151, and the last channel's bit, which meets R197. -/
theorem witness_EveryLawfulParameterCanBeGiven :
    (let f := fun d dn sn : Nat => (2 * d + 1) * sn / (2 * dn)
     (∀ d dn sn, d < dn → 1 ≤ sn → f d dn sn < sn) ∧ (∀ d n, d < n → f d n n = d) ∧
     (∀ d1 d2 dn sn, d1 ≤ d2 → d2 < dn → 1 ≤ sn → f d1 dn sn ≤ f d2 dn sn)) ∧
    (∀ bits : List Byte, bits ≠ [] → (∀ b ∈ bits, b = 0#8 ∨ b = 1#8) →
      (bits.getLastD 0#8 = 0#8 ∨ bits.getLastD 0#8 = 1#8) ∧ ∀ k, (∀ b ∈ bits, b = k) → bits.getLastD 0#8 = k) := by
  refine ⟨⟨fun d dn sn hd hs => ?_, fun d n hd => ?_, fun d1 d2 dn sn h _ _ => ?_⟩, fun bits hne hb => ?_⟩
  · rw [Nat.div_lt_iff_lt_mul (by omega), Nat.mul_comm sn]
    exact Nat.mul_lt_mul_of_pos_right (by omega) hs
  · change (2 * d + 1) * n / (2 * n) = d
    rw [Nat.mul_div_mul_right _ _ (by omega : 0 < n)]
    omega
  · exact Nat.div_le_div_right (Nat.mul_le_mul_right sn (by omega))
  · have hmem : bits.getLastD 0#8 ∈ bits := by
      rw [List.getLastD_eq_getLast?, List.getLast?_eq_some_getLast hne]
      exact List.getLast_mem hne
    exact ⟨hb _ hmem, fun k hk => hk _ hmem⟩

end Sys2Proof.Tests
end

section
/-! SUPPORT. No step writes the parameters (R8, log 1): each operation that a step is made of keeps `cfg`. -/

namespace Sys2Proof.Machine

@[simp] theorem State.faulted_cfg (s : State) (code : FCode) : (s.faulted code).cfg = s.cfg := rfl

@[simp] theorem State.start_cfg (s : State) : s.start.cfg = s.cfg := by
  obtain ⟨-, h⟩ | ⟨-, -, h⟩ | ⟨-, -, h⟩ := start_cases s <;> simp [h]

@[simp] theorem State.clear_cfg (s : State) : s.clear.cfg = s.cfg := by
  obtain ⟨-, h⟩ | ⟨-, h⟩ := clear_cases s <;> rw [h]

@[simp] theorem State.writeReg_cfg (s : State) (offset : Nat) (v : Word) : (s.writeReg offset v).cfg = s.cfg := by
  obtain ⟨-, -, h⟩ | ⟨-, -, -, h⟩ | ⟨-, -, -, h⟩ | ⟨-, h⟩ | ⟨-, -, h⟩ := writeReg_cases s offset v <;> simp [h]

theorem exec_keeps_cfg {i : Instr} {s t : State} (h : exec i s = .next t) : t.cfg = s.cfg := by
  obtain ⟨-, rfl⟩ | ⟨_, -, rfl⟩ | ⟨_, -, -, rfl⟩ := exec_cases h <;> simp

theorem sequencerStep_keeps_cfg {s t : State} (h : sequencerStep s = .next t) : t.cfg = s.cfg := by
  obtain ⟨-, rfl⟩ | ⟨-, -, rfl⟩ | ⟨-, -, _, -, rfl⟩ | ⟨-, -, _, -, hexec⟩ := sequencerStep_cases h
  · rfl
  · simp
  · simp
  · exact exec_keeps_cfg hexec

theorem hostMove_keeps_cfg {m : HostMove} {s t : State} (h : hostMove m s = .next t) : t.cfg = s.cfg := by
  obtain ⟨-, hseq⟩ | ⟨_, rfl, -⟩ | ⟨_, _, rfl, -⟩ | ⟨_, -, -, rfl⟩ | ⟨_, _, -, -, -, rfl⟩ | ⟨-, rfl⟩ :=
    hostMove_cases h
  · exact sequencerStep_keeps_cfg hseq
  · rfl
  · simp
  · rfl
  · rfl
  · simp

/-- A step is the sequencer's where no host move is due, else the oldest host move (R14, log 6). -/
theorem step_cases {s t : State} (h : step s = .next t) :
    (s.inbox = [] ∧ sequencerStep s = .next t) ∨
    (∃ m rest, s.inbox = m :: rest ∧ hostMove m { s with inbox := rest } = .next t) := by
  simp only [step, machineStep] at h
  split at h
  · rename_i hin
    exact .inl ⟨hin, h⟩
  · rename_i m rest hin
    exact .inr ⟨m, rest, hin, h⟩

/-- Settles O21: whichever operation the step is, it keeps the parameters. -/
theorem parametersNeverChange : Obligations.ParametersNeverChange := by
  intro s t h
  obtain ⟨-, hseq⟩ | ⟨m, rest, -, hmove⟩ := step_cases h
  · exact sequencerStep_keeps_cfg hseq
  · exact (hostMove_keeps_cfg hmove).trans rfl

end Sys2Proof.Machine
end

section
/-! SUPPORT. The samples of an image are its region: `Laws/Images` has that sample addresses are distinct and inside
the region; here every byte of the region is the address of a sample (R13, R75). -/

namespace Sys2Proof

/-- Every number below `h * w` has a row and a column. -/
theorem exists_mulAdd_eq {n h w : Nat} (hn : n < h * w) : ∃ y x, y < h ∧ x < w ∧ y * w + x = n := by
  have hw : 0 < w := Nat.pos_of_lt_mul_left hn
  exact ⟨n / w, n % w, (Nat.div_lt_iff_lt_mul hw).2 hn, Nat.mod_lt n hw, Nat.div_add_mod' n w⟩

theorem Desc.exists_sample_of_covers {im : Desc} {a : Nat} (h : im.covers a = true) :
    ∃ y x c, im.Has y x c ∧ im.addr y x c = a := by
  obtain ⟨hbase, hlimit⟩ := Desc.covers_iff.1 h
  obtain ⟨p, c, hp, hc, hpc⟩ := exists_mulAdd_eq (by omega : a - im.base < im.h * im.w * im.c)
  obtain ⟨y, x, hy, hx, rfl⟩ := exists_mulAdd_eq hp
  refine ⟨y, x, c, ⟨hy, hx, hc⟩, ?_⟩
  simp only [Desc.addr]
  omega

/-- Settles O22: division by the channel count and then by the width finds the sample of each byte of the region. -/
theorem samplesTileTheRegion : Obligations.SamplesTileTheRegion := by
  refine fun im => ⟨fun a => ⟨Desc.exists_sample_of_covers, ?_⟩, fun _ _ _ _ _ _ => Desc.addr_inj⟩
  rintro ⟨y, x, c, hhas, rfl⟩
  exact Desc.covers_addr hhas

end Sys2Proof
end

section
/-! SUPPORT. A function that meets the laws of R151 or R197, given as its table, is computed as it was given (log 4):
`Laws/Sampler` says that its table holds its values and that making a lawful function lawful does not change it. -/

namespace Sys2Proof.Laws

open Sys2Proof.Machine

/-- A map that meets R151 at two extents of its table is computed as it was given. -/
theorem nn_ofFunction {f : (d dn sn : Nat) → Nat} {extent dn sn : Nat} (hdn : dn ≤ extent) (hs : 1 ≤ sn)
    (hsn : sn ≤ extent) (range : ∀ d, d < dn → f d dn sn < sn) (identity : dn = sn → ∀ d, d < dn → f d dn sn = d)
    (monotone : ∀ d1 d2, d1 ≤ d2 → d2 < dn → f d1 dn sn ≤ f d2 dn sn) {d : Nat} (hd : d < dn) :
    nn (NnMap.ofFunction extent f) d dn sn = f d dn sn := by
  obtain ⟨rows, hrows⟩ : ∃ rows, NnMap.ofFunction extent f = .given rows := ⟨_, rfl⟩
  have table : ∀ d, d < dn → tableNn rows d dn sn = f d dn sn := fun d hd =>
    tableNn_ofFunction f hd hdn hs hsn hrows
  rw [hrows]
  calc lawfulNn (tableNn rows) d dn sn
      = tableNn rows d dn sn := by
        refine lawfulNn_of_laws (fun d hd => ?_) (fun he d hd => ?_) (fun d1 d2 h12 h2 => ?_) hd
        · rw [table d hd]
          exact range d hd
        · rw [table d hd]
          exact identity he d hd
        · rw [table d1 (by omega), table d2 h2]
          exact monotone d1 d2 h12 h2
    _ = f d dn sn := table d hd

/-- The choice is asked for the list itself only. -/
theorem unanimousOr_congr {raw raw' : List Byte → Bool} {bits : List Byte} (h : raw bits = raw' bits) :
    unanimousOr raw bits = unanimousOr raw' bits := by
  cases bits with
  | nil => rfl
  | cons b rest => simp only [unanimousOr, h]

/-- The table of a combination lists, of the lists of bits it covers, those combined to 1. -/
theorem ofFunction_ones_contains {f : List Byte → Byte} {channels : Nat} {ones : List (List Byte)}
    (hones : Combine.ofFunction channels f = .given ones) {bits : List Byte} (hb : ∀ b ∈ bits, b = 0#8 ∨ b = 1#8)
    (hlen : bits.length ≤ channels) : ones.contains bits = (f bits == 1#8) := by
  obtain rfl := (Combine.given.inj hones).symm
  have hcovered : bits ∈ (List.range (channels + 1)).flatMap bitLists :=
    List.mem_flatMap.2 ⟨bits.length, List.mem_range.2 (by omega), mem_bitLists.2 ⟨rfl, hb⟩⟩
  rw [Bool.eq_iff_iff, List.contains_iff_mem, List.mem_filter]
  exact and_iff_right hcovered

/-- A combination that meets R197 on a list of bits of its table is computed as it was given. -/
theorem combine_ofFunction {f : List Byte → Byte} {channels : Nat} {bits : List Byte} (hne : bits ≠ [])
    (hb : ∀ b ∈ bits, b = 0#8 ∨ b = 1#8) (hlen : bits.length ≤ channels) (bit : f bits = 0#8 ∨ f bits = 1#8)
    (unanimous : ∀ k, (∀ b ∈ bits, b = k) → f bits = k) :
    Machine.combine (Combine.ofFunction channels f) bits = f bits := by
  obtain ⟨ones, hones⟩ : ∃ ones, Combine.ofFunction channels f = .given ones := ⟨_, rfl⟩
  rw [hones]
  calc unanimousOr (fun l => ones.contains l) bits
      = unanimousOr (fun l => f l == 1#8) bits := unanimousOr_congr (ofFunction_ones_contains hones hb hlen)
    _ = f bits := unanimousOr_of_laws hne bit unanimous

/-- Settles O60, from the laws of R151 at the extents asked for and of R197 on the list of bits asked for. -/
theorem everyLawfulParameterCanBeGiven : Obligations.EveryLawfulParameterCanBeGiven := by
  refine ⟨fun f extent range identity monotone d dn sn hd hdn hs hsn => ?_,
    fun f channels laws bits hne hb hlen => ?_⟩
  · refine nn_ofFunction hdn hs hsn (fun d hd => range d dn sn hd hs) ?_
      (fun d1 d2 h12 h2 => monotone d1 d2 dn sn h12 h2 hs) hd
    rintro rfl d hd
    exact identity d dn hd
  · obtain ⟨bit, unanimous⟩ := laws bits hne hb
    exact combine_ofFunction hne hb hlen bit unanimous

end Sys2Proof.Laws
end

section
/-! SUPPORT. The invariant of the block: what a state owes it after some cells are written, for each operation that a
step is made of (R40, R49, R70, R81). -/

namespace Sys2Proof.Machine

@[simp] theorem State.faulted_run (s : State) (code : FCode) : (s.faulted code).run = .fault := rfl
@[simp] theorem State.faulted_fcode (s : State) (code : FCode) : (s.faulted code).fcode = code := rfl

namespace State.Inv

variable {s t : State}

/-- A list of cells inside the sample memory may be written (the empty list too); what is left to show of the next
state is about its registers. -/
theorem of_putAll (h : s.Inv) {cells : List Host.Cell} (cfg : t.cfg = s.cfg) (mem : t.mem = Memory.putAll s.mem cells)
    (inside : ∀ p ∈ cells, p.1 < s.cfg.memSize) (latch : t.latch = none) (progress : t.progress = [])
    (fcode : t.fcode = .none ↔ t.run ≠ .fault) (cur : t.run = .busy ∨ t.run = .done → t.cur.toNat % 4 = 0) :
    t.Inv where
  cfgLegal := cfg ▸ h.cfgLegal
  memWf := mem ▸ Memory.putAll_wf h.memWf cells
  memInside p hp := by
    rw [cfg]
    rw [mem] at hp
    exact (Memory.mem_putAll hp).elim (inside p) (h.memInside p)
  latchEmpty := latch
  progressEmpty := progress
  fcodeMatches := fcode
  curAligned := cur

/-- The same where the memory is kept. -/
theorem of_same_mem (h : s.Inv) (cfg : t.cfg = s.cfg) (mem : t.mem = s.mem) (latch : t.latch = none)
    (progress : t.progress = []) (fcode : t.fcode = .none ↔ t.run ≠ .fault)
    (cur : t.run = .busy ∨ t.run = .done → t.cur.toNat % 4 = 0) : t.Inv :=
  h.of_putAll (cells := []) cfg mem (by simp) latch progress fcode cur

/-- The invariant does not speak of IE, CMDPTR or the model's own host fields. -/
theorem withHostFields (h : s.Inv) (ie : Bool) (ptr : Word) (moves : List HostMove) (data : Option Word)
    (draws : Nat) : (s.withHostFields ie ptr moves data draws).Inv :=
  h.of_same_mem rfl rfl h.latchEmpty h.progressEmpty h.fcodeMatches h.curAligned

theorem faulted (h : s.Inv) {code : FCode} (hcode : code ≠ .none) : (s.faulted code).Inv :=
  h.of_same_mem rfl rfl rfl rfl (by simp [hcode]) (by simp)

theorem finish (h : s.Inv) (hb : s.run = .busy) : s.finish.Inv :=
  h.of_same_mem rfl rfl rfl rfl (by simp [h.fcodeMatches, hb]) fun _ => h.curAligned (.inl hb)

/-- CUR stays 4-aligned across its wrap at 2^32, a multiple of 4. -/
theorem completed (h : s.Inv) {cells : List Host.Cell} (inside : ∀ p ∈ cells, p.1 < s.cfg.memSize) :
    (s.completed (Memory.putAll s.mem cells)).Inv := by
  refine h.of_putAll rfl rfl inside rfl rfl h.fcodeMatches fun hrun => ?_
  have hcur : s.cur.toNat % 4 = 0 := h.curAligned hrun
  rw [completed_cur, BitVec.toNat_add, BitVec.toNat_ofNat]
  omega

theorem start (h : s.Inv) : s.start.Inv := by
  obtain ⟨-, hs⟩ | ⟨-, -, hs⟩ | ⟨-, haligned, hs⟩ := start_cases s <;> rw [hs]
  · exact h
  · exact h.of_same_mem rfl rfl rfl rfl (by simp) (by simp)
  · exact h.of_same_mem rfl rfl h.latchEmpty h.progressEmpty (by simp) fun _ => haligned

theorem clear (h : s.Inv) : s.clear.Inv := by
  obtain ⟨-, hs⟩ | ⟨-, hs⟩ := clear_cases s <;> rw [hs]
  · exact h.of_same_mem rfl rfl h.latchEmpty h.progressEmpty (by simp) (by simp)
  · exact h

theorem writeReg (h : s.Inv) (offset : Nat) (v : Word) : (s.writeReg offset v).Inv := by
  have hie : State.Inv { s with ie := v.getLsbD 2 } := h.withHostFields _ _ _ _ _
  obtain ⟨-, -, hs⟩ | ⟨-, -, -, hs⟩ | ⟨-, -, -, hs⟩ | ⟨-, hs⟩ | ⟨-, -, hs⟩ := writeReg_cases s offset v <;> rw [hs]
  · exact hie.start
  · exact hie.clear
  · exact hie
  · exact h.withHostFields _ _ _ _ _
  · exact h

end State.Inv

/-- A byte of a destination that passes its checks is a byte of the sample memory (R78). -/
theorem dest_byte_inside {i : Instr} {p : Config} {d : Desc} (hd : i.dest = some d)
    (hpass : firstFailing (checksOf i p) = none) {a : Nat} (ha : d.covers a = true) : a < p.memSize := by
  have hlimit := checksOf_dest_inside hd hpass
  simp only [Desc.covers, Bool.and_eq_true, decide_eq_true_eq] at ha
  omega

/-- The command of a busy block keeps the invariant. -/
theorem exec_keeps_inv {i : Instr} {s t : State} (h : s.Inv) (hb : s.run = .busy) (hexec : exec i s = .next t) :
    t.Inv := by
  obtain ⟨-, rfl⟩ | ⟨_, hcode, rfl⟩ | ⟨_, hd, hpass, rfl⟩ := exec_cases hexec
  · exact h.finish hb
  · exact h.faulted hcode
  · exact h.completed fun _ hp => dest_byte_inside hd hpass (imageCells_covered hp)

theorem sequencerStep_keeps_inv {s t : State} (h : s.Inv) (hseq : sequencerStep s = .next t) : t.Inv := by
  obtain ⟨-, rfl⟩ | ⟨-, -, rfl⟩ | ⟨-, -, r, -, rfl⟩ | ⟨hb, -, _, -, hexec⟩ := sequencerStep_cases hseq
  · exact h
  · exact h.faulted (by decide)
  · exact h.faulted (rejectCode_ne_none r)
  · exact exec_keeps_inv h hb hexec

/-- A command that leaves the block busy passed its checks, so what it writes is inside the sample memory. -/
theorem commandWrites_inside {s : State} {p : Host.Cell} (h : p ∈ s.commandWrites) : p.1 < s.cfg.memSize := by
  obtain ⟨i, d, t, -, -, -, hd, hexec, ht, hcover, -⟩ := commandWrites_mem h
  obtain ⟨-, rfl⟩ | ⟨_, -, rfl⟩ | ⟨d', hd', hpass, -⟩ := exec_cases hexec
  · simp at ht
  · simp at ht
  · exact dest_byte_inside hd hpass hcover

theorem State.Inv.hostReset {s : State} (h : s.Inv) : s.hostReset.Inv :=
  h.of_putAll rfl rfl (fun _ hp => commandWrites_inside (List.mem_of_mem_filter hp)) rfl rfl (by simp) (by simp)

theorem hostMove_keeps_inv {m : HostMove} {s t : State} (h : s.Inv) (hmove : hostMove m s = .next t) : t.Inv := by
  obtain ⟨-, hseq⟩ | ⟨_, rfl, -⟩ | ⟨o, v, rfl, -⟩ | ⟨_, -, -, rfl⟩ | ⟨a, v, -, ha, -, rfl⟩ | ⟨-, rfl⟩ :=
    hostMove_cases hmove
  · exact sequencerStep_keeps_inv h hseq
  · exact h.withHostFields _ _ _ _ _
  · exact h.writeReg o v
  · exact h.withHostFields _ _ _ _ _
  · exact h.of_putAll (cells := [(a, v)]) rfl rfl (by simpa using ha) h.latchEmpty h.progressEmpty h.fcodeMatches
      h.curAligned
  · exact h.hostReset

/-- Settles O19: whichever operation the step is, it keeps the invariant. -/
theorem everyStepKeepsTheInvariant : Obligations.EveryStepKeepsTheInvariant := by
  intro s t h hstep
  obtain ⟨-, hseq⟩ | ⟨m, rest, -, hmove⟩ := step_cases hstep
  · exact sequencerStep_keeps_inv h hseq
  · exact hostMove_keeps_inv (h.withHostFields s.ie s.cmdptr rest s.busData s.draws) hmove

/-- The state after reset meets the invariant for every legal choice of parameters (R8, R50). -/
theorem resetOf_inv {p : Config} (h : p.Legal) : (State.resetOf p).Inv where
  cfgLegal := h
  memWf := .nil
  memInside := by simp
  latchEmpty := rfl
  progressEmpty := rfl
  fcodeMatches := by simp [State.resetOf]
  curAligned := by simp

/-- Settles O20: the default parameters are legal. -/
theorem resetMeetsTheInvariant : Obligations.ResetMeetsTheInvariant :=
  ⟨fun _ => resetOf_inv, resetOf_inv (by decide)⟩

end Sys2Proof.Machine
end

section
/-! SUPPORT. STATE changes only by the sequencer's END or fault, START, CLEAR and reset (R39): which operation a change
of STATE tells of. -/

namespace Sys2Proof.Machine

/-- Of what one command can do, END and a fault change STATE. -/
theorem exec_changes_run {i : Instr} {s t : State} (hexec : exec i s = .next t) (hne : t.run ≠ s.run) :
    (i = .endRun ∧ t.run = .done) ∨ (t.run = .fault ∧ t.fcode ≠ .none) := by
  obtain ⟨hi, rfl⟩ | ⟨_, hcode, rfl⟩ | ⟨_, -, -, rfl⟩ := exec_cases hexec
  · exact .inl ⟨hi, rfl⟩
  · exact .inr ⟨rfl, hcode⟩
  · exact absurd rfl hne

theorem sequencerStep_changes_run {s t : State} (hseq : sequencerStep s = .next t) (hne : t.run ≠ s.run) :
    s.run = .busy ∧
      ((t.run = .done ∧ s.cur.toNat + 32 ≤ s.cfg.memSize ∧ decodeCommand s.fetchCommand = .instr .endRun) ∨
       (t.run = .fault ∧ t.fcode ≠ .none)) := by
  obtain ⟨-, rfl⟩ | ⟨hb, -, rfl⟩ | ⟨hb, -, r, -, rfl⟩ | ⟨hb, hfetch, i, hdecode, hexec⟩ := sequencerStep_cases hseq
  · exact absurd rfl hne
  · exact ⟨hb, .inr ⟨rfl, by simp⟩⟩
  · exact ⟨hb, .inr ⟨rfl, rejectCode_ne_none r⟩⟩
  · refine ⟨hb, (exec_changes_run hexec hne).imp_left ?_⟩
    rintro ⟨rfl, hdone⟩
    exact ⟨hdone, of_decide_eq_true hfetch, hdecode⟩

theorem start_changes_run {s : State} (hne : s.start.run ≠ s.run) :
    s.run ≠ .busy ∧ (s.start.run = .busy ∨ (s.start.run = .fault ∧ s.start.fcode = .align)) := by
  obtain ⟨-, hs⟩ | ⟨hb, -, hs⟩ | ⟨hb, -, hs⟩ := start_cases s <;> rw [hs] at hne ⊢
  · exact absurd rfl hne
  · exact ⟨hb, .inr ⟨rfl, rfl⟩⟩
  · exact ⟨hb, .inl rfl⟩

theorem clear_changes_run {s : State} (hne : s.clear.run ≠ s.run) :
    (s.run = .done ∨ s.run = .fault) ∧ s.clear.run = .idle := by
  obtain ⟨hrun, hs⟩ | ⟨-, hs⟩ := clear_cases s <;> rw [hs] at hne ⊢
  · exact ⟨hrun, rfl⟩
  · exact absurd rfl hne

/-- Of the register writes, START and CLEAR change STATE (R36). -/
theorem writeReg_changes_run {s : State} {offset : Nat} {v : Word} (hne : (s.writeReg offset v).run ≠ s.run) :
    offset = 0x04 ∧
      ((v.getLsbD 0 = true ∧ s.run ≠ .busy ∧ ((s.writeReg offset v).run = .busy ∨
          ((s.writeReg offset v).run = .fault ∧ (s.writeReg offset v).fcode = .align))) ∨
       (v.getLsbD 0 = false ∧ v.getLsbD 1 = true ∧ (s.run = .done ∨ s.run = .fault) ∧
          (s.writeReg offset v).run = .idle)) := by
  obtain ⟨ho, h0, hs⟩ | ⟨ho, h0, h1, hs⟩ | ⟨-, -, -, hs⟩ | ⟨-, hs⟩ | ⟨-, -, hs⟩ := writeReg_cases s offset v <;>
    rw [hs] at hne ⊢
  · exact ⟨ho, .inl ⟨h0, start_changes_run hne⟩⟩
  · exact ⟨ho, .inr ⟨h0, h1, clear_changes_run hne⟩⟩
  all_goals exact absurd rfl hne

/-- Settles O18, from what each operation that a step can be does to STATE. -/
theorem stateChangesOnlyAsListed : Obligations.StateChangesOnlyAsListed := by
  intro s t hstep hne
  obtain ⟨hin, hseq⟩ | ⟨m, rest, hin, hmove⟩ := step_cases hstep
  · obtain ⟨hb, how⟩ := sequencerStep_changes_run hseq hne
    exact .inl ⟨hb, .inl hin, how⟩
  · obtain ⟨rfl, hseq⟩ | ⟨_, rfl, -⟩ | ⟨o, v, rfl, rfl⟩ | ⟨_, -, -, rfl⟩ | ⟨_, _, -, -, -, rfl⟩ | ⟨rfl, rfl⟩ :=
      hostMove_cases hmove
    · obtain ⟨hb, how⟩ := sequencerStep_changes_run hseq hne
      exact .inl ⟨hb, .inr ⟨rest, hin⟩, how⟩
    · exact absurd rfl hne
    · obtain ⟨rfl, ⟨h0, how⟩ | ⟨h0, h1, how⟩⟩ := writeReg_changes_run hne
      · exact .inr (.inl ⟨v, rest, hin, h0, how⟩)
      · exact .inr (.inr (.inl ⟨v, rest, hin, h0, h1, how⟩))
    · exact absurd rfl hne
    · exact absurd rfl hne
    · exact .inr (.inr (.inr ⟨rest, hin, rfl⟩))

end Sys2Proof.Machine
end

section
/-! SUPPORT. One step that is a host move due now, move by move: the register window (R33 to R45), CTRL (R36), the
interrupt line (R47), reset (R50) and the sample memory with no run in progress (R320, R321). -/

namespace Sys2Proof.Machine

section
variable (s : State) (rest : List HostMove)

theorem registerAccessOk_iff {offset width : Nat} :
    registerAccessOk offset width = true ↔ width = 4 ∧ offset % 4 = 0 ∧ offset < 64 := by
  simp [registerAccessOk, and_assoc]

/-! The register window. -/

theorem step_readReg {offset : Nat} (h : registerAccessOk offset 4 = true) :
    step { s with inbox := .readReg offset 4 :: rest } =
      .next { s with inbox := rest, busData := some (s.readReg offset) } :=
  if_pos h

theorem step_writeReg {offset : Nat} (v : Word) (h : registerAccessOk offset 4 = true) :
    step { s with inbox := .writeReg offset 4 v :: rest } =
      .next (State.writeReg { s with inbox := rest } offset v) :=
  if_pos h

theorem step_readReg_refused {offset width : Nat} (h : registerAccessOk offset width ≠ true) :
    step { s with inbox := .readReg offset width :: rest } = .refused (.registerAccess offset width) :=
  if_neg h

theorem step_writeReg_refused {offset width : Nat} (v : Word) (h : registerAccessOk offset width ≠ true) :
    step { s with inbox := .writeReg offset width v :: rest } = .refused (.registerAccess offset width) :=
  if_neg h

theorem readReg_reserved {offset : Nat} (h : 0x18 ≤ offset) : s.readReg offset = 0#32 := by
  rw [State.readReg, if_neg (by omega), if_neg (by omega), if_neg (by omega), if_neg (by omega), if_neg (by omega),
    if_neg (by omega)]

theorem writeReg_ignored {offset : Nat} (v : Word) (hctrl : offset ≠ 0x04) (hptr : offset ≠ 0x0C) :
    s.writeReg offset v = s := by
  rw [State.writeReg, if_neg hctrl, if_neg hptr]

/-! CTRL and the interrupt line. -/

theorem step_writeCtrl (v : Word) :
    step { s with inbox := .writeReg 0x04 4 v :: rest } = .next (State.writeCtrl { s with inbox := rest } v) := rfl

theorem writeCtrl_start {v : Word} (h0 : v.getLsbD 0 = true) :
    s.writeCtrl v = State.start { s with ie := v.getLsbD 2 } :=
  if_pos h0

theorem writeCtrl_clear {v : Word} (h0 : v.getLsbD 0 = false) (h1 : v.getLsbD 1 = true) :
    s.writeCtrl v = State.clear { s with ie := v.getLsbD 2 } := by
  simp only [State.writeCtrl, h0, h1, Bool.false_eq_true, if_false, if_true]

theorem writeCtrl_ie_only {v : Word} (h0 : v.getLsbD 0 = false) (h1 : v.getLsbD 1 = false) :
    s.writeCtrl v = { s with ie := v.getLsbD 2 } := by
  simp only [State.writeCtrl, h0, h1, Bool.false_eq_true, if_false]

variable {s}

theorem start_of_busy (hb : s.run = .busy) : s.start = s := if_pos hb

theorem start_of_aligned (hb : s.run ≠ .busy) (ha : s.cmdptr.toNat % 4 = 0) : s.start = s.beginRun := by
  simp [State.start, hb, ha]

theorem start_of_misaligned (hb : s.run ≠ .busy) (ha : s.cmdptr.toNat % 4 ≠ 0) :
    s.start = s.beginRun.faulted .align := by
  simp [State.start, hb, ha, State.raiseFault_eq_faulted]

theorem clear_of_finished (h : s.run = .done ∨ s.run = .fault) :
    s.clear = { s with run := .idle, fcode := .none } := if_pos h

theorem clear_of_not_finished (h : ¬ (s.run = .done ∨ s.run = .fault)) : s.clear = s := if_neg h

@[simp] theorem State.start_ie : s.start.ie = s.ie := by
  obtain ⟨-, hs⟩ | ⟨-, -, hs⟩ | ⟨-, -, hs⟩ := start_cases s <;> rw [hs] <;> rfl

@[simp] theorem State.clear_ie : s.clear.ie = s.ie := by
  obtain ⟨-, hs⟩ | ⟨-, hs⟩ := clear_cases s <;> rw [hs]

@[simp] theorem State.writeCtrl_ie (v : Word) : (s.writeCtrl v).ie = v.getLsbD 2 := by
  cases h0 : v.getLsbD 0
  · cases h1 : v.getLsbD 1
    · rw [writeCtrl_ie_only s h0 h1]
    · rw [writeCtrl_clear s h0 h1, State.clear_ie]
  · rw [writeCtrl_start s h0, State.start_ie]

theorem clear_not_finished : ¬ (s.clear.run = .done ∨ s.clear.run = .fault) := by
  obtain ⟨-, hs⟩ | ⟨hrun, hs⟩ := clear_cases s <;> rw [hs]
  · simp
  · exact hrun

theorem irq_iff : s.irq = true ↔ s.ie = true ∧ (s.run = .done ∨ s.run = .fault) := by
  simp [State.irq]

theorem irq_eq_false_iff : s.irq = false ↔ ¬ (s.ie = true ∧ (s.run = .done ∨ s.run = .fault)) := by
  rw [← irq_iff, Bool.not_eq_true]

/-! The sample memory, with no run in progress. -/

theorem commandWrites_of_not_busy (h : s.run ≠ .busy) : s.commandWrites = [] := by
  simp [State.commandWrites, h]

theorem tornMem_of_not_busy (h : s.run ≠ .busy) : s.tornMem = s.mem := by
  rw [State.tornMem, commandWrites_of_not_busy h, List.filter_nil, Memory.putAll_nil]

theorem hostByte_of_not_busy (h : s.run ≠ .busy) (address : Nat) : s.hostByte address = s.byte address := if_neg h

theorem step_readMem {address : Nat} (ha : address < s.cfg.memSize) (hb : s.run ≠ .busy) :
    step { s with inbox := .readMem address :: rest } =
      .next { s with inbox := rest, busData := some ((s.byte address).setWidth 32), draws := s.draws + 1 } := by
  refine (if_pos ha).trans ?_
  rw [hostByte_of_not_busy (s := { s with inbox := rest }) hb]
  rfl

theorem step_writeMem {address : Nat} (v : Byte) (ha : address < s.cfg.memSize) (hb : s.run ≠ .busy) :
    step { s with inbox := .writeMem address v :: rest } =
      .next { s with inbox := rest, mem := Memory.put s.mem address v } :=
  (if_neg hb).trans (if_pos ha)

theorem step_writeMem_refused (address : Nat) (v : Byte) (hb : s.run = .busy) :
    step { s with inbox := .writeMem address v :: rest } = .refused (.writeWhileBusy address) :=
  if_pos hb

theorem byte_put_same (address : Nat) (v : Byte) :
    State.byte { s with mem := Memory.put s.mem address v } address = v :=
  Memory.byteOr_of_look (Memory.look_put_same s.mem address v) _

theorem byte_put_other {address other : Nat} (v : Byte) (h : other ≠ address) :
    State.byte { s with mem := Memory.put s.mem address v } other = s.byte other :=
  Memory.byteOr_congr (Memory.look_put_other s.mem v h) _

end

/-! The codes of STATUS, by the spec's tables. -/

theorem RunState.code_of_table :
    ∀ p ∈ [(RunState.idle, 0), (.busy, 1), (.done, 2), (.fault, 3)], p.1.code = p.2 := by decide

theorem FCode.code_of_table :
    ∀ p ∈ [(FCode.none, 0), (.illegalOpcode, 1), (.reserved, 2), (.badMethod, 3), (.badChannels, 4), (.badDim, 5),
      (.shape, 6), (.bounds, 7), (.aliasing, 8), (.fetch, 9), (.align, 10)], p.1.code = p.2 := by decide

/-- Settles O48: each offset of the table is an aligned word of the window, and reads the register named there. -/
theorem registerReadsReturnTheirRegister : Obligations.RegisterReadsReturnTheirRegister := by
  rintro s rest ⟨offset, value⟩ hq
  have hread : registerAccessOk offset 4 = true ∧ s.readReg offset = value := by
    simp only [List.mem_cons, Prod.mk.injEq, List.not_mem_nil, or_false] at hq
    obtain ⟨rfl, rfl⟩ | ⟨rfl, rfl⟩ | ⟨rfl, rfl⟩ | ⟨rfl, rfl⟩ | ⟨rfl, rfl⟩ | ⟨rfl, rfl⟩ := hq <;> exact ⟨rfl, rfl⟩
  obtain ⟨hok, hvalue⟩ := hread
  rw [step_readReg s rest hok, hvalue]

/-- Settles O49: an offset past COUNT is none of the registers, to a read or to a write. -/
theorem reservedOffsetsReadZeroAndIgnoreWrites : Obligations.ReservedOffsetsReadZeroAndIgnoreWrites := by
  intro s rest offset v hlow hhigh haligned
  have hok : registerAccessOk offset 4 = true := registerAccessOk_iff.2 ⟨rfl, haligned, by omega⟩
  constructor
  · rw [step_readReg s rest hok, readReg_reserved s hlow]
  · rw [step_writeReg s rest v hok, writeReg_ignored _ v (by omega) (by omega)]

/-- Settles O50: the four offsets are neither CTRL's nor CMDPTR's, so a write there is ignored. -/
theorem registerWritesReachOnlyCmdptr : Obligations.RegisterWritesReachOnlyCmdptr := by
  intro s rest v
  refine ⟨fun offset hmem => ?_, step_writeReg s rest v (by decide)⟩
  have hignored : registerAccessOk offset 4 = true ∧ offset ≠ 0x04 ∧ offset ≠ 0x0C := by
    revert offset
    decide
  obtain ⟨hok, hctrl, hptr⟩ := hignored
  rw [step_writeReg s rest v hok, writeReg_ignored _ v hctrl hptr]

/-- Settles O51: IE is written first, and START or CLEAR then acts on the state with the new IE. -/
theorem controlWriteActsInOrder : Obligations.ControlWriteActsInOrder := by
  intro s rest v o s1
  have ho : o = .next (State.writeCtrl { s with inbox := rest } v) := step_writeCtrl s rest v
  rw [ho]
  refine ⟨fun h0 hb => ?_, fun h0 hb ha => ?_, fun h0 hb ha => ?_, fun h0 h1 hfin => ?_, fun h0 hnot => ?_⟩
  · rw [writeCtrl_start _ h0]
    exact congrArg _ (start_of_busy (s := s1) hb)
  · rw [writeCtrl_start _ h0]
    exact congrArg _ (start_of_aligned (s := s1) hb ha)
  · rw [writeCtrl_start _ h0]
    exact congrArg _ (start_of_misaligned (s := s1) hb ha)
  · rw [writeCtrl_clear _ h0 h1]
    exact congrArg _ (clear_of_finished (s := s1) hfin)
  · cases h1 : v.getLsbD 1
    · rw [writeCtrl_ie_only _ h0 h1]
    · rw [writeCtrl_clear _ h0 h1]
      exact congrArg _ (clear_of_not_finished (s := s1) fun hfin => hnot ⟨h1, hfin⟩)

/-- Settles O52: a write without IE leaves IE 0, and a CLEAR leaves no finished run. -/
theorem interruptLineFollowsItsRule : Obligations.InterruptLineFollowsItsRule := by
  refine ⟨fun _ => irq_iff, fun _ => rfl, fun s t rest v hstep hwrite => ?_⟩
  obtain rfl := Host.Outcome.next.inj ((step_writeCtrl s rest v).symm.trans hstep)
  rw [irq_eq_false_iff]
  rintro ⟨hie, hfin⟩
  obtain h2 | ⟨h0, h1⟩ := hwrite
  · rw [State.writeCtrl_ie, h2] at hie
    cases hie
  · rw [writeCtrl_clear _ h0 h1] at hfin
    exact clear_not_finished hfin

/-- Settles O53: a run in progress is what tears the memory. -/
theorem resetGivesEveryRegisterItsValue : Obligations.ResetGivesEveryRegisterItsValue :=
  fun s rest => ⟨State.hostReset { s with inbox := rest }, rfl, rfl, rfl, rfl, rfl, rfl, rfl, rfl, rfl, rfl, rfl,
    fun hb => tornMem_of_not_busy (s := { s with inbox := rest }) hb⟩

/-- Settles O55: each of the three accesses breaks one of the conditions of R45. -/
theorem undefinedHostMovesAreRefused : Obligations.UndefinedHostMovesAreRefused := by
  intro s rest
  refine ⟨fun offset width h => ?_, fun hb address v => step_writeMem_refused rest address v hb⟩
  have hbad : registerAccessOk offset width ≠ true := by
    rw [Ne, registerAccessOk_iff]
    omega
  exact ⟨step_readReg_refused s rest hbad, fun v => step_writeReg_refused s rest v hbad⟩

/-- Settles O56: the read after the write returns the byte of the written memory. -/
theorem hostReadsWhatItLastWrote : Obligations.HostReadsWhatItLastWrote := by
  intro s rest address v hb ha
  refine ⟨Memory.put s.mem address v, step_writeMem _ v ha hb, ?_, byte_put_same address v,
    fun _ hne => byte_put_other v hne⟩
  have hread := step_readMem (s := { s with mem := Memory.put s.mem address v }) rest ha hb
  rwa [byte_put_same] at hread

/-- Settles O58: the read returns `statusWord`, whose two codes are the spec's tables. -/
theorem statusShowsTheCodesOfTheSpec : Obligations.StatusShowsTheCodesOfTheSpec := by
  intro s rest stateCode faultCode hstate hfault
  obtain rfl : s.run.code = stateCode := RunState.code_of_table _ hstate
  obtain rfl : s.fcode.code = faultCode := FCode.code_of_table _ hfault
  exact step_readReg s rest (by decide)

end Sys2Proof.Machine
end

section
/-! SUPPORT. Bytes read and written little-endian (R72, R73). -/

namespace Sys2Proof

/-- Byte `j` of the little-endian value of a list of bytes is the list's byte `j` (R72). -/
theorem leNat_div_mod {bs : List Byte} {j : Nat} (h : j < bs.length) :
    leNat bs / 256 ^ j % 256 = bs[j].toNat := by
  induction bs generalizing j with
  | nil => cases h
  | cons b bs ih =>
    have hb := b.isLt
    cases j with
    | zero =>
      simp only [leNat, List.getElem_cons_zero, Nat.pow_zero]
      omega
    | succ j =>
      have htail : (b.toNat + 256 * leNat bs) / 256 = leNat bs := by omega
      rw [leNat, Nat.pow_succ', ← Nat.div_div_eq_div_mul, htail, List.getElem_cons_succ,
        ih (by simpa using h)]

namespace Machine

/-- A command word as its four bytes (R73, R241). -/
theorem commandWord_toNat (s : State) (i : Nat) :
    (s.commandWord i).toNat = leNat ((List.range 4).map fun j => s.byte (s.cur.toNat + 4 * i + j)) := by
  have h := leNat_lt ((List.range 4).map fun j => s.byte (s.cur.toNat + 4 * i + j))
  rw [List.length_map, List.length_range] at h
  exact (BitVec.toNat_ofNat _ 32).trans (Nat.mod_eq_of_lt h)

/-- Settles O14: byte `j` of the word's value is the byte read there. -/
theorem commandWordsAreLittleEndian : Obligations.CommandWordsAreLittleEndian := by
  intro s i j hj
  have hpow : 2 ^ (8 * j) = 256 ^ j := Nat.pow_mul 2 8 j
  apply BitVec.eq_of_toNat_eq
  rw [BitVec.extractLsb'_toNat, commandWord_toNat, Nat.shiftRight_eq_div_pow, hpow,
    leNat_div_mod (by simpa using hj), List.getElem_map, List.getElem_range]

/-- The cells that `MemWrite(a, n, v)` writes (R72). -/
def writeLeCells (a n v : Nat) : List Host.Cell := (leBytes n v).zipIdx.map fun p => (a + p.2, p.1)

theorem writeLe_eq_putAll (m : Memory) (a n v : Nat) :
    Memory.writeLe m a n v = Memory.putAll m (writeLeCells a n v) := rfl

theorem writeLeCells_addresses (a n v : Nat) :
    (writeLeCells a n v).map Prod.fst = (List.range n).map fun i => a + i := by
  have h : (leBytes n v).zipIdx.map Prod.snd = List.range n := by
    rw [List.zipIdx_map_snd, length_leBytes, List.range_eq_range']
  rw [writeLeCells, List.map_map, ← h, List.map_map]
  rfl

theorem mem_writeLeCells {a n v i : Nat} (h : i < (leBytes n v).length) :
    (a + i, (leBytes n v)[i]) ∈ writeLeCells a n v :=
  List.mem_map.2 ⟨((leBytes n v)[i], i), List.mk_mem_zipIdx_iff_getElem?.2 (List.getElem?_eq_getElem h), rfl⟩

theorem writeLeCells_nodup (a n v : Nat) : ((writeLeCells a n v).map Prod.fst).Nodup := by
  rw [writeLeCells_addresses]
  exact List.nodup_range.map fun _ _ h => Nat.add_left_cancel h

theorem address_of_mem_writeLeCells {a n v : Nat} {p : Host.Cell} (h : p ∈ writeLeCells a n v) :
    a ≤ p.1 ∧ p.1 < a + n := by
  have haddress := List.mem_map_of_mem (f := Prod.fst) h
  rw [writeLeCells_addresses] at haddress
  obtain ⟨i, hi, he⟩ := List.mem_map.1 haddress
  rw [List.mem_range] at hi
  omega

/-- Settles O23: each byte written reads back, and those bytes are the digits of `v` in base 256. -/
theorem memReadReadsBackMemWrite : Obligations.MemReadReadsBackMemWrite := by
  intro s a n v
  rw [writeLe_eq_putAll]
  refine ⟨?_, fun address hout => ?_⟩
  · have hbytes : ((List.range n).map fun i =>
        State.byte { s with mem := Memory.putAll s.mem (writeLeCells a n v) } (a + i)) = leBytes n v := by
      refine List.ext_getElem (by simp) fun i _ hi => ?_
      rw [List.getElem_map, List.getElem_range]
      exact Memory.byteOr_of_look (Memory.look_putAll_mem (writeLeCells_nodup a n v) (mem_writeLeCells hi)) _
    rw [State.memRead, hbytes, leNat_leBytes]
  · refine Memory.byteOr_congr (Memory.look_putAll_other fun p hp => ?_) _
    have hinside := address_of_mem_writeLeCells hp
    omega

end Machine
end Sys2Proof
end

section
/-! SUPPORT. A command and its sources: its destination lies apart from them (R79), so nothing it writes changes what it
reads (R95), and the order in which it writes its samples is free (R87). -/

namespace Sys2Proof.Machine

/-- Settles O24: a command writes only its destination, which overlaps no source. -/
theorem sourcesAreNeverWritten : Obligations.SourcesAreNeverWritten := by
  intro i s t x address hexec hx hcover
  obtain ⟨rfl, -⟩ | ⟨_, -, rfl⟩ | ⟨d, hd, hpass, rfl⟩ := exec_cases hexec
  · cases hx
  · rfl
  · have hout := covers_false_of_not_overlaps (checksOf_source_apart hd hx hpass) hcover
    exact Memory.byteOr_congr (look_image_outside s.mem (sampleValue i s) hout) _

/-! What the checks settle about the shapes of the images (R266 steps 6 to 8). -/

theorem sizeDiffers_eq_false_iff {x z : Desc} : x.sizeDiffers z = false ↔ x.SameSize z := by
  simp [Desc.sizeDiffers]

theorem shapeDiffers_eq_false_iff {x z : Desc} : x.shapeDiffers z = false ↔ x.SameSize z ∧ x.c = z.c := by
  simp [Desc.shapeDiffers, sizeDiffers_eq_false_iff]

theorem dimBad_eq_false_iff {x : Desc} : x.dimBad = false ↔ x.h ≠ 0 ∧ x.w ≠ 0 := by
  simp [Desc.dimBad]

theorem checksAD_passing {memSize : Nat} {chA chD shape : Bool} {a d : Desc}
    (h : firstFailing (checksAD memSize chA chD shape a d) = none) :
    chA = false ∧ a.dimBad = false ∧ shape = false := by
  simp only [firstFailing_eq_none, checksAD, List.forall_mem_cons] at h
  obtain ⟨hA, -, hdim, -, hshape, -⟩ := h
  exact ⟨hA, hdim, hshape⟩

theorem checksABD_passing {memSize : Nat} {chA chB chD shape : Bool} {a b d : Desc}
    (h : firstFailing (checksABD memSize chA chB chD shape a b d) = none) :
    chB = false ∧ a.dimBad = false ∧ b.dimBad = false ∧ shape = false := by
  simp only [firstFailing_eq_none, checksABD, List.forall_mem_cons] at h
  obtain ⟨-, hB, -, hdimA, hdimB, -, hshape, -⟩ := h
  exact ⟨hB, hdimA, hdimB, hshape⟩

/-! What a command reads. -/

/-- Two states that a command with the given sources cannot tell apart: the same parameters, and the same samples in
every source. -/
structure AgreeOn (sources : List Desc) (s s' : State) : Prop where
  cfg : s'.cfg = s.cfg
  sample : ∀ im ∈ sources, ∀ y x c, im.Has y x c → s'.sample im y x c = s.sample im y x c

/-- Both index maps stay inside the source extent (R151). -/
theorem nn_lt (k : NnMap) {d dn sn : Nat} (hd : d < dn) (hs : sn ≠ 0) : nn k d dn sn < sn := by
  cases k with
  | floorMap =>
    rw [nn, floorNn, Nat.div_lt_iff_lt_mul (by omega), Nat.mul_comm sn]
    exact Nat.mul_lt_mul_of_pos_right hd (by omega)
  | given rows =>
    rw [nn, lawfulNn]
    split
    · omega
    · have hmax := Laws.runningMax_le (f := fun i => min (tableNn rows i dn sn) (sn - 1)) (b := d) (m := sn - 1)
        fun _ _ => Nat.min_le_right _ _
      omega

/-- One pixel decodes from that pixel's samples alone. -/
theorem pixelBit_congr {s s' : State} {m : Method} {a b : Desc} {y x : Nat} (h : AgreeOn [a, b] s s')
    (hy : y < a.h) (hx : x < a.w) (hba : b.SameSize a ∧ b.c = a.c) :
    pixelBit s' m a b y x = pixelBit s m a b y x := by
  obtain ⟨⟨hbh, hbw⟩, hbc⟩ := hba
  have hbits : ∀ c ∈ List.range a.c,
      pdec m (s'.sample a y x c) (s'.sample b y x c) = pdec m (s.sample a y x c) (s.sample b y x c) := by
    intro c hc
    rw [List.mem_range] at hc
    rw [h.sample a (by simp) y x c ⟨hy, hx, hc⟩, h.sample b (by simp) y x c ⟨by omega, by omega, by omega⟩]
  rw [pixelBit, pixelBit, h.cfg, List.map_congr_left hbits]

/-- Where its checks pass, a command computes each sample of its destination from samples of its sources: its shape
rule, or the range of the index map, says that what it reads are samples of them. -/
theorem sampleValue_congr {i : Instr} {d : Desc} {s s' : State} (hd : i.dest = some d)
    (hpass : firstFailing (checksOf i s.cfg) = none) (h : AgreeOn i.sources s s') {y x c : Nat} (hq : d.Has y x c) :
    sampleValue i s' y x c = sampleValue i s y x c := by
  obtain ⟨hy, hx, hc⟩ := hq
  cases i <;> simp only [Instr.dest, Option.some.injEq, reduceCtorEq] at hd <;> subst hd
  case encode m a b d =>
    obtain ⟨hb, -, -, hshape⟩ := checksABD_passing hpass
    simp only [bne_eq_false_iff_eq, Bool.or_eq_false_iff, sizeDiffers_eq_false_iff, shapeDiffers_eq_false_iff]
      at hb hshape
    obtain ⟨⟨hbh, hbw⟩, ⟨hdh, hdw⟩, hdc⟩ := hshape
    simp only [sampleValue, encodeSample]
    rw [h.sample a (by simp [Instr.sources]) y x c ⟨by omega, by omega, by omega⟩,
      h.sample b (by simp [Instr.sources]) y x 0 ⟨by omega, by omega, by omega⟩]
  case decode m a b d =>
    obtain ⟨-, -, -, hshape⟩ := checksABD_passing hpass
    simp only [Bool.or_eq_false_iff, sizeDiffers_eq_false_iff, shapeDiffers_eq_false_iff] at hshape
    obtain ⟨hba, hdh, hdw⟩ := hshape
    exact pixelBit_congr h (by omega) (by omega) hba
  case resize a d =>
    obtain ⟨ha, hdim, -⟩ := checksAD_passing hpass
    simp only [bne_eq_false_iff_eq, dimBad_eq_false_iff] at ha hdim
    simp only [sampleValue, resizeSample, h.cfg]
    exact h.sample a (by simp [Instr.sources]) _ _ 0 ⟨nn_lt _ hy hdim.1, nn_lt _ hx hdim.2, by omega⟩
  case binarize t a d =>
    obtain ⟨-, -, hshape⟩ := checksAD_passing hpass
    obtain ⟨⟨hdh, hdw⟩, hdc⟩ := shapeDiffers_eq_false_iff.1 hshape
    simp only [sampleValue, binarizeSample]
    rw [h.sample a (by simp [Instr.sources]) y x c ⟨by omega, by omega, by omega⟩]
  case embed m a b d =>
    obtain ⟨hb, -, hdim, hshape⟩ := checksABD_passing hpass
    simp only [bne_eq_false_iff_eq, dimBad_eq_false_iff] at hb hdim
    obtain ⟨⟨hdh, hdw⟩, hdc⟩ := shapeDiffers_eq_false_iff.1 hshape
    simp only [sampleValue, embedSample, h.cfg]
    rw [h.sample a (by simp [Instr.sources]) y x c ⟨by omega, by omega, by omega⟩,
      h.sample b (by simp [Instr.sources]) _ _ 0 ⟨nn_lt _ (by omega) hdim.1, nn_lt _ (by omega) hdim.2, by omega⟩]
  case extract m a b d =>
    obtain ⟨-, hdim, -, hshape⟩ := checksABD_passing hpass
    obtain ⟨hdh, hdw⟩ := dimBad_eq_false_iff.1 hdim
    simp only [sampleValue, extractSample, h.cfg]
    rw [pixelBit_congr h (nn_lt _ hy hdh) (nn_lt _ hx hdw) (shapeDiffers_eq_false_iff.1 hshape)]

/-! A command performed sample by sample. -/

/-- The cell of one destination sample, with the value that the atomic command gives it. -/
def sampleCell (i : Instr) (d : Desc) (s : State) (q : Nat × Nat × Nat) : Host.Cell :=
  (d.addr q.1 q.2.1 q.2.2, sampleValue i s q.1 q.2.1 q.2.2)

theorem imageCells_eq_sampleCells (i : Instr) (d : Desc) (s : State) :
    imageCells d (sampleValue i s) = d.coords.map (sampleCell i d s) := imageCells_eq_map d _

section
variable {i : Instr} {d : Desc} {s s' : State} (hd : i.dest = some d)
  (hpass : firstFailing (checksOf i s.cfg) = none) (h : AgreeOn i.sources s s')
include hd hpass h

/-- A sample written leaves every source as it was. -/
theorem AgreeOn.writeSample {q : Nat × Nat × Nat} (hq : d.Has q.1 q.2.1 q.2.2) :
    AgreeOn i.sources s (writeSample i d s' q) where
  cfg := h.cfg
  sample im him y x c hhas := by
    have hapart := covers_false_of_not_overlaps (checksOf_source_apart hd him hpass) (Desc.covers_addr hhas)
    have hne : im.addr y x c ≠ d.addr q.1 q.2.1 q.2.2 := by
      intro he
      rw [he, Desc.covers_addr hq] at hapart
      cases hapart
    exact (byte_put_other _ hne).trans (h.sample im him y x c hhas)

/-- Samples written one after another have the values of the atomic command. -/
theorem foldl_writeSample_mem {order : List (Nat × Nat × Nat)} (hhas : ∀ q ∈ order, d.Has q.1 q.2.1 q.2.2) :
    (order.foldl (writeSample i d) s').mem = Memory.putAll s'.mem (order.map (sampleCell i d s)) := by
  induction order generalizing s' with
  | nil => rfl
  | cons q order ih =>
    have hq := hhas q List.mem_cons_self
    rw [List.foldl_cons, ih (h.writeSample hd hpass hq) fun r hr => hhas r (List.mem_cons_of_mem q hr), List.map_cons,
      Memory.putAll_cons, sampleCell, ← sampleValue_congr hd hpass h hq]
    rfl

end

/-- Writes to distinct addresses may come in any order. -/
theorem putAll_perm {m : Memory} {cells cells' : List Host.Cell} (hm : Memory.wf m) (hperm : cells.Perm cells')
    (hd : (cells.map Prod.fst).Nodup) : Memory.putAll m cells = Memory.putAll m cells' := by
  refine Memory.ext_of_look (Memory.putAll_wf hm _) (Memory.putAll_wf hm _) fun a => ?_
  by_cases ha : ∃ p ∈ cells, p.1 = a
  · obtain ⟨p, hp, rfl⟩ := ha
    rw [Memory.look_putAll_mem hd hp,
      Memory.look_putAll_mem ((hperm.map Prod.fst).nodup_iff.1 hd) (hperm.mem_iff.1 hp)]
  · have hother : ∀ p ∈ cells, p.1 ≠ a := fun p hp he => ha ⟨p, hp, he⟩
    rw [Memory.look_putAll_other hother, Memory.look_putAll_other fun p hp => hother p (hperm.mem_iff.2 hp)]

/-- Settles O25: in whatever order, the samples written are the cells of the atomic command. -/
theorem sampleOrderDoesNotMatter : Obligations.SampleOrderDoesNotMatter := by
  intro i d s t order hm hd hexec hcount hperm
  obtain ⟨rfl, -⟩ | ⟨_, -, rfl⟩ | ⟨d', hd', hpass, rfl⟩ := exec_cases hexec
  · cases hd
  · have hstopped : s.count = s.count + 1#32 := hcount
    simp at hstopped
  · obtain rfl := Option.some.inj (hd'.symm.trans hd)
    have hagree : AgreeOn i.sources s s := ⟨rfl, fun _ _ _ _ _ _ => rfl⟩
    have hnodup := imageCells_nodup d' (sampleValue i s)
    rw [imageCells_eq_sampleCells] at hnodup
    calc (order.foldl (writeSample i d') s).mem
        = Memory.putAll s.mem (order.map (sampleCell i d' s)) :=
          foldl_writeSample_mem hd hpass hagree fun q hq => Desc.mem_coords.1 (hperm.mem_iff.1 hq)
      _ = Memory.putAll s.mem (imageCells d' (sampleValue i s)) := by
          rw [imageCells_eq_sampleCells]
          exact (putAll_perm hm (hperm.symm.map _) hnodup).symm

end Sys2Proof.Machine
end

section
/-! SUPPORT. A step, a run and what a run writes, with no host move due: every step of a run that goes on completes a
command (R241 to R244), so a run can be counted back to its beginning (log 7) and is short (R246); and the reads of the
host while one is in progress (R88). -/

namespace Sys2Proof.Machine

/-! One step. -/

theorem step_of_inbox_nil {s : State} (h : s.inbox = []) : step s = sequencerStep s := by
  simp only [step, machineStep, h]

/-- Settles O11: the sequencer's step raises FETCH before it fetches. -/
theorem fetchOutsideTheMemoryFaults : Obligations.FetchOutsideTheMemoryFaults := by
  intro s hin hb hcur
  have hfetch : s.fetchable = false := by
    rw [State.fetchable, decide_eq_false_iff_not]
    omega
  rw [step_of_inbox_nil hin, sequencerStep_unfetchable hb hfetch]

/-- The sequencer's step always answers a next state. -/
theorem sequencerStep_answers (s : State) : ∃ t, sequencerStep s = .next t := by
  by_cases hb : s.run = .busy
  · cases hf : s.fetchable with
    | false => exact ⟨_, sequencerStep_unfetchable hb hf⟩
    | true =>
      cases hd : decodeCommand s.fetchCommand with
      | reject r => exact ⟨_, sequencerStep_reject hb hf hd⟩
      | instr i => rw [sequencerStep_instr hb hf hd]; exact exec_answers i s
  · exact ⟨s, sequencerStep_idle hb⟩

/-- A step after which the run goes on has completed a command that fits in memory at CUR. -/
theorem completed_of_busy {s t : State} (h : sequencerStep s = .next t) (ht : t.run = .busy) :
    s.run = .busy ∧ s.cur.toNat + 32 ≤ s.cfg.memSize ∧ ∃ m, t = s.completed m := by
  obtain ⟨hb, rfl⟩ | ⟨-, -, rfl⟩ | ⟨-, -, _, -, rfl⟩ | ⟨hb, hf, i, -, hexec⟩ := sequencerStep_cases h
  · exact absurd ht hb
  · cases ht
  · cases ht
  · obtain ⟨-, rfl⟩ | ⟨_, -, rfl⟩ | ⟨_, -, -, rfl⟩ := exec_cases hexec
    · cases ht
    · cases ht
    · exact ⟨hb, of_decide_eq_true hf, _, rfl⟩

/-- What the command at CUR writes: a byte of its destination, with the value that its completion leaves there. -/
theorem mem_commandWrites_iff {s : State} {a : Nat} {b : Byte} :
    (a, b) ∈ s.commandWrites ↔ s.run = .busy ∧ ∃ t i d, decodeCommand s.fetchCommand = .instr i ∧ i.dest = some d ∧
      sequencerStep s = .next t ∧ t.run = .busy ∧ d.covers a = true ∧ b = t.byte a := by
  constructor
  · intro h
    obtain ⟨i, d, t, hb, hf, hdecode, hdest, hexec, ht, hcover, hvalue⟩ := commandWrites_mem h
    exact ⟨hb, t, i, d, hdecode, hdest, (sequencerStep_instr hb hf hdecode).trans hexec, ht, hcover, hvalue⟩
  · rintro ⟨hb, t, i, d, hdecode, hdest, hstep, ht, hcover, rfl⟩
    exact mem_commandWrites hb hdecode hdest hstep ht hcover

/-- The sequencer never touches the host's moves. -/
theorem sequencerStep_keeps_inbox {s t : State} (h : sequencerStep s = .next t) : t.inbox = s.inbox := by
  obtain ⟨-, rfl⟩ | ⟨-, -, rfl⟩ | ⟨-, -, _, -, rfl⟩ | ⟨-, -, _, -, hexec⟩ := sequencerStep_cases h
  · rfl
  · rfl
  · rfl
  · obtain ⟨-, rfl⟩ | ⟨_, -, rfl⟩ | ⟨_, -, -, rfl⟩ := exec_cases hexec <;> rfl

/-! A run with no host move due. -/

theorem run_succ {s t : State} (hin : s.inbox = []) (h : sequencerStep s = .next t) (k : Nat) :
    Host.Core.run Sys2Proof.core (k + 1) s = Host.Core.run Sys2Proof.core k t := by
  have hstep : Sys2Proof.core.step s = .next t := (step_of_inbox_nil hin).trans h
  simp only [Host.Core.run, hstep]

theorem run_keeps_inbox {s u : State} {k : Nat} (hin : s.inbox = [])
    (h : Host.Core.run Sys2Proof.core k s = .next u) : u.inbox = [] := by
  induction k generalizing s with
  | zero => rwa [← Host.Outcome.next.inj h]
  | succ k ih =>
    obtain ⟨t, hseq⟩ := sequencerStep_answers s
    rw [run_succ hin hseq] at h
    exact ih ((sequencerStep_keeps_inbox hseq).trans hin) h

/-- A block at rest stays as it is (R262, R302). -/
theorem run_of_not_busy {s : State} (hin : s.inbox = []) (hb : s.run ≠ .busy) (k : Nat) :
    Host.Core.run Sys2Proof.core k s = .next s := by
  induction k with
  | zero => rfl
  | succ k ih => rw [run_succ hin (sequencerStep_idle hb), ih]

/-- A run that is still in progress after a step completed a command with that step. -/
theorem run_succ_busy {s u : State} {k : Nat} (hin : s.inbox = [])
    (h : Host.Core.run Sys2Proof.core (k + 1) s = .next u) (hu : u.run = .busy) :
    s.cur.toNat + 32 ≤ s.cfg.memSize ∧ ∃ m, Host.Core.run Sys2Proof.core k (s.completed m) = .next u := by
  obtain ⟨t, hseq⟩ := sequencerStep_answers s
  have htin : t.inbox = [] := (sequencerStep_keeps_inbox hseq).trans hin
  rw [run_succ hin hseq] at h
  have ht : t.run = .busy := by
    by_contra hrest
    obtain rfl := Host.Outcome.next.inj ((run_of_not_busy htin hrest k).symm.trans h)
    exact hrest hu
  obtain ⟨-, hfits, m, rfl⟩ := completed_of_busy hseq ht
  exact ⟨hfits, m, h⟩

/-- Counting back (log 7): one more command done moves CUR and COUNT together. -/
theorem runBegin_completed (s : State) (m : Memory) : (s.completed m).runBegin = s.runBegin := by
  have hcur : s.cur + 32#32 - 32#32 * (s.count + 1#32) = s.cur - 32#32 * s.count := by
    rw [BitVec.mul_add, BitVec.mul_one, BitVec.add_comm (32#32 * s.count), ← BitVec.sub_sub, BitVec.add_sub_cancel]
  simp only [State.runBegin, State.completed, hcur]

/-- Every state of a run counts back to the same beginning. -/
theorem run_keeps_runBegin {s u : State} {k : Nat} (hin : s.inbox = [])
    (h : Host.Core.run Sys2Proof.core k s = .next u) (hu : u.run = .busy) : u.runBegin = s.runBegin := by
  induction k generalizing s with
  | zero => rw [← Host.Outcome.next.inj h]
  | succ k ih =>
    obtain ⟨-, m, hrest⟩ := run_succ_busy hin h hu
    exact (ih (s := s.completed m) hin hrest).trans (runBegin_completed s m)

/-- The state a run begins in is its own beginning. -/
theorem runBegin_of_start {s : State} (hinv : s.Inv) (hcount : s.count = 0#32) (hmem : s.startMem = s.mem) :
    s.runBegin = s := by
  have hcur : s.cur - 32#32 * s.count = s.cur := by rw [hcount, BitVec.mul_zero, BitVec.sub_zero]
  rw [State.runBegin, hcur, ← hcount, ← hinv.latchEmpty, ← hinv.progressEmpty]
  nth_rewrite 1 [hmem]
  rfl

/-- The k-th command of a run in progress is at CUR + 32 * k, without wrap (R244, R246). -/
theorem run_busy_cur {s u : State} {k : Nat} (hsize : s.cfg.memSize < 2 ^ 32) (hin : s.inbox = [])
    (h : Host.Core.run Sys2Proof.core k s = .next u) (hu : u.run = .busy) :
    u.cur.toNat = s.cur.toNat + 32 * k ∧ u.cfg = s.cfg := by
  induction k generalizing s with
  | zero => obtain rfl := Host.Outcome.next.inj h; exact ⟨rfl, rfl⟩
  | succ k ih =>
    obtain ⟨hfits, m, hrest⟩ := run_succ_busy hin h hu
    obtain ⟨hcur, hcfg⟩ := ih (s := s.completed m) hsize hin hrest
    refine ⟨?_, hcfg⟩
    rw [hcur, State.completed_cur, BitVec.toNat_add, BitVec.toNat_ofNat]
    omega

/-! What a run writes. -/

theorem runWrites_succ {s t : State} (h : sequencerStep s = .next t) (n : Nat) :
    State.runWrites (n + 1) s = s.commandWrites ++ State.runWrites n t := by
  by_cases hb : s.run = .busy
  · simp only [State.runWrites, hb, h, if_true]
  · obtain rfl := Host.Outcome.next.inj ((sequencerStep_idle hb).symm.trans h)
    have hnone : ∀ n, State.runWrites n s = [] := fun n => by cases n <;> simp [State.runWrites, hb]
    rw [hnone, hnone, commandWrites_of_not_busy hb, List.append_nil]

/-- A run writes what its commands write, one after another. -/
theorem mem_runWrites {s : State} {n : Nat} {p : Host.Cell} (hin : s.inbox = []) :
    p ∈ State.runWrites n s ↔
      ∃ k u, k < n ∧ Host.Core.run Sys2Proof.core k s = .next u ∧ p ∈ u.commandWrites := by
  induction n generalizing s with
  | zero => simp [State.runWrites]
  | succ n ih =>
    obtain ⟨t, hseq⟩ := sequencerStep_answers s
    rw [runWrites_succ hseq, List.mem_append, ih ((sequencerStep_keeps_inbox hseq).trans hin)]
    constructor
    · rintro (h | ⟨k, u, hk, hrun, h⟩)
      · exact ⟨0, s, n.succ_pos, rfl, h⟩
      · exact ⟨k + 1, u, Nat.succ_lt_succ hk, (run_succ hin hseq k).trans hrun, h⟩
    · rintro ⟨_ | k, u, hk, hrun, h⟩
      · obtain rfl := Host.Outcome.next.inj hrun
        exact .inl h
      · exact .inr ⟨k, u, Nat.lt_of_succ_lt_succ hk, (run_succ hin hseq k).symm.trans hrun, h⟩

/-- A command that completes is one of the first `memSize / 32` of its run: the fuel of `runValues` suffices (R246). -/
theorem run_command_index {s u t : State} {k : Nat} (hsize : s.cfg.memSize < 2 ^ 32) (hin : s.inbox = [])
    (h : Host.Core.run Sys2Proof.core k s = .next u) (hseq : sequencerStep u = .next t) (ht : t.run = .busy) :
    k < s.cfg.memSize / 32 + 1 := by
  obtain ⟨hu, hfits, -⟩ := completed_of_busy hseq ht
  obtain ⟨hcur, hcfg⟩ := run_busy_cur hsize hin h hu
  rw [hcfg] at hfits
  omega

theorem mem_runValues {s : State} {a : Nat} {b : Byte} :
    b ∈ s.runValues a ↔ (a, b) ∈ State.runWrites (s.cfg.memSize / 32 + 1) s.runBegin := by
  simp [State.runValues]

/-- Settles O59: counted back, the state is where the run began, and a run's writes are its commands' writes. -/
theorem runValuesAreWhatTheRunWrites : Obligations.RunValuesAreWhatTheRunWrites := by
  intro s0 s n hinv hin _ hcount hmem hrun hb ie ptr moves data draws a b
  have hsize : s0.cfg.memSize < 2 ^ 32 := by
    have := hinv.cfgLegal
    omega
  have hbegin : s.runBegin = s0 := (run_keeps_runBegin hin hrun hb).trans (runBegin_of_start hinv hcount hmem)
  have hcfg : s.cfg = s0.cfg := by rw [← hbegin]; rfl
  change b ∈ (s.withHostFields ie ptr moves data draws).runValues a ↔ _
  rw [runValues_withHostFields, mem_runValues, hbegin, hcfg, mem_runWrites hin]
  constructor
  · rintro ⟨k, u, -, hk, hwrites⟩
    obtain ⟨hu, t, i, d, hdecode, hdest, hseq, ht, hcover, hvalue⟩ := mem_commandWrites_iff.1 hwrites
    exact ⟨k, u, t, i, d, hk, hu, hdecode, hdest, (step_of_inbox_nil (run_keeps_inbox hin hk)).trans hseq, ht, hcover,
      hvalue⟩
  · rintro ⟨k, u, t, i, d, hk, hu, hdecode, hdest, hstep, ht, hcover, hvalue⟩
    rw [step_of_inbox_nil (run_keeps_inbox hin hk)] at hstep
    exact ⟨k, u, run_command_index hsize hin hk hstep ht, hk,
      mem_commandWrites_iff.2 ⟨hu, t, i, d, hdecode, hdest, hstep, ht, hcover, hvalue⟩⟩

/-! A host read during a run. -/

theorem hostByte_unwritten {s : State} {a : Nat} (h : s.runValues a = []) : s.hostByte a = s.byte a := by
  simp [State.hostByte, h]

theorem hostByte_written {s : State} {a : Nat} (hb : s.run = .busy) (h : s.runValues a ≠ []) :
    s.hostByte a = s.runBegin.byte a ∨ s.hostByte a ∈ s.runValues a := by
  obtain ⟨v, vs, hvalues⟩ := List.exists_cons_of_ne_nil h
  rw [State.hostByte, if_pos hb, hvalues, ← List.mem_cons]
  dsimp only
  rw [List.getD_eq_getElem _ _ (Nat.mod_lt _ (by simp))]
  exact List.getElem_mem _

/-- Settles O57: the read returns `hostByte`, case by case. -/
theorem hostReadsDuringARunAreBounded : Obligations.HostReadsDuringARunAreBounded := by
  intro s rest address ha s1
  exact ⟨s1.hostByte address, if_pos ha, fun hb => hostByte_of_not_busy (s := s1) hb address,
    fun _ hnone => hostByte_unwritten hnone, fun hb hsome => hostByte_written (s := s1) hb hsome⟩

end Sys2Proof.Machine
end

section
/-! SUPPORT. The decoder and the encoder (R110 to R123): what the decoder does with each opcode, the fields it reads back
from an encoded command, and the header bits it looks at. -/

namespace Sys2Proof

/-! The decoder, opcode by opcode (R115, R121). -/

/-- The command of each opcode that uses METH (R115). -/
def methodInstr : (opc : Nat) → Method → (a b d : Desc) → Instr
  | 1 => .encode
  | 2 => .decode
  | 5 => .embed
  | _ => .extract

theorem methodInstr_wellFormed (opc : Nat) (m : Method) (a b d : Desc) :
    (methodInstr opc m a b d).wellFormed = (a.wellFormed && b.wellFormed && d.wellFormed) := by
  unfold methodInstr
  split <;> rfl

theorem encode_methodInstr {opc : Nat} (h : opc ∈ [1, 2, 5, 6]) (m : Method) (a b d : Desc) :
    encode (methodInstr opc m a b d) = commandOf opc m.code 0 a b d := by
  simp only [List.mem_cons, List.not_mem_nil, or_false] at h
  obtain rfl | rfl | rfl | rfl := h <;> rfl

theorem method_opcode_lt : ∀ opc ∈ [1, 2, 5, 6], opc < 7 := by decide

theorem opcode_cases {opc : Nat} (h : opc < 7) : opc = 0 ∨ opc ∈ [1, 2, 5, 6] ∨ opc = 3 ∨ opc = 4 := by
  simp only [List.mem_cons, List.not_mem_nil, or_false]
  omega

section
variable {c : Command}

theorem decodeLegal_endRun (h : bitField c.w0 3 0 = 0) : c.decodeLegal = .instr .endRun := by
  simp only [Command.decodeLegal, h]

theorem decodeLegal_method (h : bitField c.w0 3 0 ∈ [1, 2, 5, 6]) :
    c.decodeLegal = c.withMethod fun m => methodInstr (bitField c.w0 3 0) m c.descA c.descB c.descD := by
  simp only [List.mem_cons, List.not_mem_nil, or_false] at h
  obtain h | h | h | h := h <;> simp only [Command.decodeLegal, methodInstr, h]

theorem decodeLegal_resize (h : bitField c.w0 3 0 = 3) : c.decodeLegal = .instr (.resize c.descA c.descD) := by
  simp only [Command.decodeLegal, h]

theorem decodeLegal_binarize (h : bitField c.w0 3 0 = 4) :
    c.decodeLegal = .instr (.binarize (bitField c.w0 15 8) c.descA c.descD) := by
  simp only [Command.decodeLegal, h]

theorem decodeCommand_illegal (h : 7 ≤ bitField c.w0 3 0) : decodeCommand c = .reject .illegalOpcode := if_pos h

theorem decodeCommand_reserved (h : bitField c.w0 3 0 < 7) (hr : c.reservedClear = false) :
    decodeCommand c = .reject .reserved := by
  simp [decodeCommand, hr, Nat.not_le.2 h]

theorem decodeCommand_clear (h : bitField c.w0 3 0 < 7) (hr : c.reservedClear = true) :
    decodeCommand c = c.decodeLegal := by
  simp [decodeCommand, hr, Nat.not_le.2 h]

/-- Only a command with a legal opcode and clear reserved fields decodes to an instruction. -/
theorem decodeLegal_of_decodeCommand {i : Instr} (h : decodeCommand c = .instr i) :
    bitField c.w0 3 0 < 7 ∧ c.decodeLegal = .instr i := by
  rcases Nat.lt_or_ge (bitField c.w0 3 0) 7 with hopc | hopc
  · cases hr : c.reservedClear with
    | false => simp [decodeCommand_reserved hopc hr] at h
    | true => exact ⟨hopc, (decodeCommand_clear hopc hr).symm.trans h⟩
  · simp [decodeCommand_illegal hopc] at h

theorem withMethod_of_code {m : Method} (h : methodOfCode (bitField c.w0 5 4) = some m) (f : Method → Instr) :
    c.withMethod f = .instr (f m) := by
  simp only [Command.withMethod, h]

theorem exists_method_of_withMethod {f : Method → Instr} {i : Instr} (h : c.withMethod f = .instr i) :
    ∃ m, f m = i := by
  unfold Command.withMethod at h
  split at h
  · exact ⟨_, Decoded.instr.inj h⟩
  · cases h

end

/-! The fields of an encoded command (R112 to R114). -/

theorem methodOfCode_code (m : Method) : methodOfCode m.code = some m := by cases m <;> rfl

theorem Desc.wellFormed_iff {x : Desc} :
    x.wellFormed = true ↔ x.base < 2 ^ 32 ∧ x.h < 2 ^ 16 ∧ x.w < 2 ^ 16 ∧ x.c < 2 ^ 3 := by
  simp [Desc.wellFormed, and_assoc]

theorem Desc.zero_wellFormed : Desc.zero.wellFormed = true := by decide

/-- Every field of a command fits its place, and the opcode is legal (R112, R113). -/
structure FieldsFit (opc meth thr : Nat) (a b d : Desc) : Prop where
  opc : opc < 7
  meth : meth < 4
  thr : thr < 2 ^ 8
  a : a.wellFormed = true
  b : b.wellFormed = true
  d : d.wellFormed = true

theorem dimsWord_fields {x : Desc} (hh : x.h < 2 ^ 16) (hw : x.w < 2 ^ 16) :
    bitField (dimsWord x) 31 16 = x.h ∧ bitField (dimsWord x) 15 0 = x.w := by
  simp only [dimsWord, bitField_ofNat]
  omega

theorem headerWord_fields {opc meth thr ca cb cd : Nat} (ho : opc < 7) (hm : meth < 4) (ht : thr < 2 ^ 8)
    (ha : ca < 2 ^ 3) (hb : cb < 2 ^ 3) (hd : cd < 2 ^ 3) :
    let w := headerWord opc meth thr ca cb cd
    bitField w 3 0 = opc ∧ bitField w 5 4 = meth ∧ bitField w 15 8 = thr ∧
      bitField w 18 16 = ca ∧ bitField w 21 19 = cb ∧ bitField w 24 22 = cd := by
  simp only [headerWord, bitField_ofNat]
  omega

/-- A descriptor is read back from its words and its channel field. -/
theorem desc_of_words {x : Desc} (hx : x.wellFormed = true) {ch : Nat} (hc : ch = x.c) :
    ({ base := (BitVec.ofNat 32 x.base).toNat, h := bitField (dimsWord x) 31 16, w := bitField (dimsWord x) 15 0,
       c := ch } : Desc) = x := by
  obtain ⟨hbase, hh, hw, -⟩ := Desc.wellFormed_iff.1 hx
  obtain ⟨hfieldH, hfieldW⟩ := dimsWord_fields hh hw
  rw [hfieldH, hfieldW, hc, BitVec.toNat_ofNat, Nat.mod_eq_of_lt hbase]

section
variable {opc meth thr : Nat} {a b d : Desc} (h : FieldsFit opc meth thr a b d)
include h

theorem FieldsFit.header :
    let w := (commandOf opc meth thr a b d).w0
    bitField w 3 0 = opc ∧ bitField w 5 4 = meth ∧ bitField w 15 8 = thr ∧
      bitField w 18 16 = a.c ∧ bitField w 21 19 = b.c ∧ bitField w 24 22 = d.c :=
  headerWord_fields h.opc h.meth h.thr (Laws.wellFormed_c_lt h.a) (Laws.wellFormed_c_lt h.b) (Laws.wellFormed_c_lt h.d)

theorem FieldsFit.descA : (commandOf opc meth thr a b d).descA = a := by
  obtain ⟨-, -, -, hc, -, -⟩ := h.header
  exact desc_of_words h.a hc

theorem FieldsFit.descB : (commandOf opc meth thr a b d).descB = b := by
  obtain ⟨-, -, -, -, hc, -⟩ := h.header
  exact desc_of_words h.b hc

theorem FieldsFit.descD : (commandOf opc meth thr a b d).descD = d := by
  obtain ⟨-, -, -, -, -, hc⟩ := h.header
  exact desc_of_words h.d hc

theorem FieldsFit.opcode : bitField (commandOf opc meth thr a b d).w0 3 0 = opc := h.header.1

theorem FieldsFit.decodeCommand_eq :
    decodeCommand (commandOf opc meth thr a b d) = (commandOf opc meth thr a b d).decodeLegal :=
  decodeCommand_clear (h.opcode.symm ▸ h.opc)
    (Laws.reservedClear_commandOf (Nat.lt_trans h.opc (by decide)) h.meth h.thr (Laws.wellFormed_c_lt h.a)
      (Laws.wellFormed_c_lt h.b) (Laws.wellFormed_c_lt h.d))

end

/-! Decoding inverts encoding. -/

theorem decodeCommand_encode_method {opc : Nat} (hopc : opc ∈ [1, 2, 5, 6]) (m : Method) {a b d : Desc}
    (h : (a.wellFormed && b.wellFormed && d.wellFormed) = true) :
    decodeCommand (encode (methodInstr opc m a b d)) = .instr (methodInstr opc m a b d) := by
  simp only [Bool.and_eq_true] at h
  obtain ⟨⟨ha, hb⟩, hd⟩ := h
  have hfit : FieldsFit opc m.code 0 a b d := ⟨method_opcode_lt opc hopc, Laws.methodCode_lt m, by decide, ha, hb, hd⟩
  obtain ⟨hfieldOpc, hfieldMeth, -⟩ := hfit.header
  rw [encode_methodInstr hopc, hfit.decodeCommand_eq, decodeLegal_method (hfieldOpc.symm ▸ hopc),
    withMethod_of_code (hfieldMeth.symm ▸ methodOfCode_code m), hfit.opcode, hfit.descA, hfit.descB, hfit.descD]

theorem decodeCommand_encode {i : Instr} (h : i.wellFormed = true) : decodeCommand (encode i) = .instr i := by
  cases i with
  | endRun => decide
  | encode m a b d => exact decodeCommand_encode_method (opc := 1) (by decide) m h
  | decode m a b d => exact decodeCommand_encode_method (opc := 2) (by decide) m h
  | embed m a b d => exact decodeCommand_encode_method (opc := 5) (by decide) m h
  | extract m a b d => exact decodeCommand_encode_method (opc := 6) (by decide) m h
  | resize a d =>
    simp only [Instr.wellFormed, Bool.and_eq_true] at h
    have hfit : FieldsFit 3 0 0 a Desc.zero d :=
      ⟨by decide, by decide, by decide, h.1, Desc.zero_wellFormed, h.2⟩
    rw [encode, hfit.decodeCommand_eq, decodeLegal_resize hfit.opcode, hfit.descA, hfit.descD]
  | binarize t a d =>
    simp only [Instr.wellFormed, thresholdWellFormed, Bool.and_eq_true, decide_eq_true_eq] at h
    obtain ⟨⟨ht, ha⟩, hd⟩ := h
    have hfit : FieldsFit 4 0 t a Desc.zero d := ⟨by decide, by decide, ht, ha, Desc.zero_wellFormed, hd⟩
    obtain ⟨hfieldOpc, -, hfieldThr, -⟩ := hfit.header
    rw [encode, hfit.decodeCommand_eq, decodeLegal_binarize hfieldOpc, hfieldThr, hfit.descA, hfit.descD]

/-- The byte decoder on a command's own bytes: the command, and what follows it (R110). -/
theorem decodeBytes_bytes (c : Command) (rest : List Byte) : decodeBytes (c.bytes ++ rest) = (decodeCommand c, rest) := by
  have hlong : ¬ (c.bytes ++ rest).length < 32 := by simp
  rw [decodeBytes, if_neg hlong, commandOfBytes_bytes, List.drop_left' c.length_bytes]

/-- Settles O26: the 32 bytes give back the words, and the words the fields. -/
theorem decodeInvertsEncode : Obligations.DecodeInvertsEncode := by
  intro i rest h
  rw [encodeBytes, decodeBytes_bytes, decodeCommand_encode h]

/-! What decoding gives is well-formed. -/

theorem descA_wellFormed (c : Command) : c.descA.wellFormed = true :=
  Desc.wellFormed_iff.2 ⟨c.w1.isLt, bitField_lt _ _ _, bitField_lt _ _ _, bitField_lt _ _ _⟩

theorem descB_wellFormed (c : Command) : c.descB.wellFormed = true :=
  Desc.wellFormed_iff.2 ⟨c.w3.isLt, bitField_lt _ _ _, bitField_lt _ _ _, bitField_lt _ _ _⟩

theorem descD_wellFormed (c : Command) : c.descD.wellFormed = true :=
  Desc.wellFormed_iff.2 ⟨c.w5.isLt, bitField_lt _ _ _, bitField_lt _ _ _, bitField_lt _ _ _⟩

theorem decodeCommand_wellFormed {c : Command} {i : Instr} (h : decodeCommand c = .instr i) : i.wellFormed = true := by
  obtain ⟨hlegal, h⟩ := decodeLegal_of_decodeCommand h
  obtain hopc | hopc | hopc | hopc := opcode_cases hlegal
  · rw [decodeLegal_endRun hopc] at h
    obtain rfl := Decoded.instr.inj h
    rfl
  · rw [decodeLegal_method hopc] at h
    obtain ⟨m, rfl⟩ := exists_method_of_withMethod h
    simp [methodInstr_wellFormed, descA_wellFormed, descB_wellFormed, descD_wellFormed]
  · rw [decodeLegal_resize hopc] at h
    obtain rfl := Decoded.instr.inj h
    simp [Instr.wellFormed, descA_wellFormed, descD_wellFormed]
  · rw [decodeLegal_binarize hopc] at h
    obtain rfl := Decoded.instr.inj h
    have hthr : thresholdWellFormed (bitField c.w0 15 8) = true := decide_eq_true (bitField_lt _ _ _)
    simp [Instr.wellFormed, hthr, descA_wellFormed, descD_wellFormed]

/-- Settles O27: every operand is read from the field it has to fit. -/
theorem decodedInstructionsAreWellFormed : Obligations.DecodedInstructionsAreWellFormed := by
  intro bs rest i h
  rw [decodeBytes] at h
  split at h
  · cases h
  · obtain ⟨hdecode, rfl⟩ := Prod.mk.inj h
    refine ⟨decodeCommand_wellFormed hdecode, ?_⟩
    rw [List.length_drop]
    omega

/-! The header bits a command uses (R112, R115). -/

theorem bitField_eq_extractLsb' (v : Word) (hi lo : Nat) :
    bitField v hi lo = (v.extractLsb' lo (hi + 1 - lo)).toNat := by
  rw [bitField, BitVec.extractLsb'_toNat, Nat.shiftRight_eq_div_pow]

/-- Words that agree under a mask agree on every field inside the mask. -/
theorem bitField_congr_of_mask {v v' mask : Word} (h : v &&& mask = v' &&& mask) {hi lo : Nat}
    (hmask : mask.extractLsb' lo (hi + 1 - lo) = BitVec.allOnes _) : bitField v hi lo = bitField v' hi lo := by
  have hfield := congrArg (BitVec.extractLsb' lo (hi + 1 - lo)) h
  rw [BitVec.extractLsb'_and, BitVec.extractLsb'_and, hmask, BitVec.and_allOnes, BitVec.and_allOnes] at hfield
  rw [bitField_eq_extractLsb', bitField_eq_extractLsb', hfield]

theorem bitField_opcode (v : Word) : bitField v 3 0 = (v &&& 0xF#32).toNat := by
  rw [BitVec.toNat_and, bitField, Nat.pow_zero, Nat.div_one]
  exact (Nat.and_two_pow_sub_one_eq_mod v.toNat 4).symm

section
variable {c c' : Command} {mask : Word} (h : c.w0 &&& mask = c'.w0 &&& mask)
include h

/-- Commands that agree on OPC and the reserved fields decode alike where their used fields do. -/
theorem decodeCommand_congr (hmask : mask &&& 0xFE0000CF#32 = 0xFE0000CF#32) (h7 : c.w7 = c'.w7)
    (hlegal : bitField c.w0 3 0 = bitField c'.w0 3 0 → c.decodeLegal = c'.decodeLegal) :
    decodeCommand c = decodeCommand c' := by
  have hcommon : c.w0 &&& 0xFE0000CF#32 = c'.w0 &&& 0xFE0000CF#32 := by
    rw [← hmask, ← BitVec.and_assoc, h, BitVec.and_assoc]
  have hopc : bitField c.w0 3 0 = bitField c'.w0 3 0 := bitField_congr_of_mask hcommon (by decide)
  have hrsv0 : bitField c.w0 7 6 = bitField c'.w0 7 6 := bitField_congr_of_mask hcommon (by decide)
  have hrsv1 : bitField c.w0 31 25 = bitField c'.w0 31 25 := bitField_congr_of_mask hcommon (by decide)
  have hclear : c.reservedClear = c'.reservedClear := by
    rw [Command.reservedClear, Command.reservedClear, hrsv0, hrsv1, h7]
  rw [decodeCommand, decodeCommand, hclear, hlegal hopc, hopc]

theorem descA_congr (hmask : mask.extractLsb' 16 3 = BitVec.allOnes 3) (h1 : c.w1 = c'.w1) (h2 : c.w2 = c'.w2) :
    c.descA = c'.descA := by
  rw [Command.descA, Command.descA, h1, h2, bitField_congr_of_mask (hi := 18) (lo := 16) h hmask]

theorem descB_congr (hmask : mask.extractLsb' 19 3 = BitVec.allOnes 3) (h3 : c.w3 = c'.w3) (h4 : c.w4 = c'.w4) :
    c.descB = c'.descB := by
  rw [Command.descB, Command.descB, h3, h4, bitField_congr_of_mask (hi := 21) (lo := 19) h hmask]

theorem descD_congr (hmask : mask.extractLsb' 22 3 = BitVec.allOnes 3) (h5 : c.w5 = c'.w5) (h6 : c.w6 = c'.w6) :
    c.descD = c'.descD := by
  rw [Command.descD, Command.descD, h5, h6, bitField_congr_of_mask (hi := 24) (lo := 22) h hmask]

end

/-- Settles O29: in each case the mask keeps every field that the opcode's row of the decoder reads. -/
theorem ignoredFieldsHaveNoEffect : Obligations.IgnoredFieldsHaveNoEffect := by
  intro c c' h7
  refine ⟨fun hopc h => ?_, fun hopc h h1 h2 h5 h6 => ?_, fun hopc h h1 h2 h5 h6 => ?_,
    fun hopc h h1 h2 h3 h4 h5 h6 => ?_⟩
  · have hc : bitField c.w0 3 0 = 0 := by rw [bitField_opcode, hopc]; rfl
    refine decodeCommand_congr h (by decide) h7 fun hsame => ?_
    rw [decodeLegal_endRun hc, decodeLegal_endRun (hsame ▸ hc)]
  · have hc : bitField c.w0 3 0 = 3 := by rw [bitField_opcode, hopc]; rfl
    refine decodeCommand_congr h (by decide) h7 fun hsame => ?_
    rw [decodeLegal_resize hc, decodeLegal_resize (hsame ▸ hc), descA_congr h (by decide) h1 h2,
      descD_congr h (by decide) h5 h6]
  · have hc : bitField c.w0 3 0 = 4 := by rw [bitField_opcode, hopc]; rfl
    have hthr : bitField c.w0 15 8 = bitField c'.w0 15 8 := bitField_congr_of_mask h (by decide)
    refine decodeCommand_congr h (by decide) h7 fun hsame => ?_
    rw [decodeLegal_binarize hc, decodeLegal_binarize (hsame ▸ hc), hthr, descA_congr h (by decide) h1 h2,
      descD_congr h (by decide) h5 h6]
  · have hc : bitField c.w0 3 0 ∈ [1, 2, 5, 6] := by
      rw [bitField_opcode]
      exact List.mem_map_of_mem (f := BitVec.toNat) hopc
    have hmeth : bitField c.w0 5 4 = bitField c'.w0 5 4 := bitField_congr_of_mask h (by decide)
    refine decodeCommand_congr h (by decide) h7 fun hsame => ?_
    rw [decodeLegal_method hc, decodeLegal_method (hsame ▸ hc), Command.withMethod, Command.withMethod, hmeth, hsame,
      descA_congr h (by decide) h1 h2, descB_congr h (by decide) h3 h4, descD_congr h (by decide) h5 h6]

/-- Settles O28: each word of the table is evaluated. -/
theorem specHeaderWordsDecode : Obligations.SpecHeaderWordsDecode := by
  refine ⟨?_, ?_, ?_, ?_, ?_, ?_, ?_, ?_, ?_, ?_⟩ <;> decide

end Sys2Proof
end

section
/-! SUPPORT. Commands in the sequencer and the assembler: the decode faults in their order (R121, R266), and what a line
of a program becomes (R123, R124). -/

namespace Sys2Proof.Machine

/-! The decode faults of the command at CUR. -/

theorem fetchCommand_opcode (s : State) : bitField s.fetchCommand.w0 3 0 = s.memRead s.cur.toNat 4 % 16 := by
  rw [bitField, Nat.pow_zero, Nat.div_one]
  exact congrArg (· % 16) (commandWord_toNat s 0)

theorem fetchCommand_method (s : State) : bitField s.fetchCommand.w0 5 4 = s.memRead s.cur.toNat 4 / 16 % 4 :=
  congrArg (· / 16 % 4) (commandWord_toNat s 0)

/-- RSV0, RSV1 and W7 as numbers in memory (R112, R119). -/
theorem fetchCommand_reservedClear_iff (s : State) : s.fetchCommand.reservedClear = true ↔
    s.memRead s.cur.toNat 4 / 64 % 4 = 0 ∧ s.memRead s.cur.toNat 4 / 2 ^ 25 = 0 ∧
      s.memRead (s.cur.toNat + 28) 4 = 0 := by
  have h0 : s.fetchCommand.w0.toNat = s.memRead s.cur.toNat 4 := commandWord_toNat s 0
  have h7 : s.fetchCommand.w7.toNat = s.memRead (s.cur.toNat + 28) 4 := commandWord_toNat s 7
  have hlt := s.fetchCommand.w0.isLt
  have hzero : s.fetchCommand.w7 = 0#32 ↔ s.fetchCommand.w7.toNat = 0 := BitVec.toNat_inj.symm
  simp only [Command.reservedClear, Bool.and_eq_true, beq_iff_eq, bitField, hzero, ← h0, ← h7]
  omega

theorem exists_methodOfCode {k : Nat} (h : k < 3) : ∃ m, methodOfCode k = some m := by
  obtain rfl | rfl | rfl : k = 0 ∨ k = 1 ∨ k = 2 := by omega
  · exact ⟨_, rfl⟩
  · exact ⟨_, rfl⟩
  · exact ⟨_, rfl⟩

theorem decodeCommand_badMethod {c : Command} (hr : c.reservedClear = true) (hopc : bitField c.w0 3 0 ∈ [1, 2, 5, 6])
    (hm : bitField c.w0 5 4 = 3) : decodeCommand c = .reject .badMethod := by
  rw [decodeCommand_clear (method_opcode_lt _ hopc) hr, decodeLegal_method hopc, Command.withMethod, hm]
  rfl

/-- A command with none of the decode faults decodes. -/
theorem decodeCommand_decodes {c : Command} (hlegal : bitField c.w0 3 0 < 7) (hr : c.reservedClear = true)
    (hm : ¬ (bitField c.w0 3 0 ∈ [1, 2, 5, 6] ∧ bitField c.w0 5 4 = 3)) : ∃ i, decodeCommand c = .instr i := by
  rw [decodeCommand_clear hlegal hr]
  obtain hopc | hopc | hopc | hopc := opcode_cases hlegal
  · exact ⟨_, decodeLegal_endRun hopc⟩
  · have hne : bitField c.w0 5 4 ≠ 3 := fun h => hm ⟨hopc, h⟩
    have hlt : bitField c.w0 5 4 < 4 := bitField_lt c.w0 5 4
    obtain ⟨m, hcode⟩ := exists_methodOfCode (by omega : bitField c.w0 5 4 < 3)
    exact ⟨_, (decodeLegal_method hopc).trans (withMethod_of_code hcode _)⟩
  · exact ⟨_, decodeLegal_resize hopc⟩
  · exact ⟨_, decodeLegal_binarize hopc⟩

/-- Settles O10: the decoder's own order of rejections, on the words at CUR. -/
theorem undecodableCommandsFaultInOrder : Obligations.UndecodableCommandsFaultInOrder := by
  intro s hin hb hcur
  have hfetch : s.fetchable = true := decide_eq_true hcur
  have hclear := fetchCommand_reservedClear_iff s
  simp only [step_of_inbox_nil hin, FaultsInOrder, ← fetchCommand_opcode, ← fetchCommand_method, Nat.not_le]
  refine ⟨⟨fun hopc => ?_, fun hopc => ⟨fun hres => ?_, fun hres => ⟨fun hmeth => ?_, fun _ => trivial⟩⟩⟩,
    fun hopc h0 h1 h7 hmeth => ?_⟩
  · exact sequencerStep_reject hb hfetch (decodeCommand_illegal hopc)
  · refine sequencerStep_reject hb hfetch (decodeCommand_reserved hopc ?_)
    rw [← Bool.not_eq_true, hclear]
    omega
  · exact sequencerStep_reject hb hfetch (decodeCommand_badMethod (hclear.2 (by omega)) hmeth.1 hmeth.2)
  · obtain ⟨i, hi⟩ := decodeCommand_decodes hopc (hclear.2 ⟨h0, h1, h7⟩) hmeth
    exact ⟨i, sequencerStep_instr hb hfetch hi⟩

/-! The assembler. -/

theorem wellFormed_of_asmOperandOk {x : Desc} (h : asmOperandOk x = true) : x.wellFormed = true := by
  simp only [asmOperandOk, Bool.and_eq_true, decide_eq_true_eq] at h
  rw [Desc.wellFormed_iff]
  omega

/-- The ranges of R123 lie inside the fields of R112 and R113. -/
theorem wellFormed_of_asmInstrOk {i : Instr} (h : asmInstrOk i = true) : i.wellFormed = true := by
  cases i <;> simp only [asmInstrOk, Bool.and_eq_true, decide_eq_true_eq] at h <;>
    simp only [Instr.wellFormed, thresholdWellFormed, Bool.and_eq_true, decide_eq_true_eq]
  case resize a d => exact ⟨wellFormed_of_asmOperandOk h.1, wellFormed_of_asmOperandOk h.2⟩
  case binarize t a d =>
    obtain ⟨⟨ht, ha⟩, hd⟩ := h
    exact ⟨⟨by omega, wellFormed_of_asmOperandOk ha⟩, wellFormed_of_asmOperandOk hd⟩
  all_goals
    obtain ⟨⟨ha, hb⟩, hd⟩ := h
    exact ⟨⟨wellFormed_of_asmOperandOk ha, wellFormed_of_asmOperandOk hb⟩, wellFormed_of_asmOperandOk hd⟩

theorem assemble_eq_some_iff {l : AsmLine} {c : Command} :
    assemble l = some c ↔ ∃ i, l.expand = some i ∧ asmInstrOk i = true ∧ encode i = c := by
  unfold assemble
  split <;> simp_all

/-- Settles O30: a line in range has a well-formed instruction, whose encoding decodes back. -/
theorem assembledLinesDecodeBack : Obligations.AssembledLinesDecodeBack := by
  refine ⟨fun l i hl hok => ?_, fun i hbad => ?_⟩
  · exact ⟨encode i, assemble_eq_some_iff.2 ⟨i, hl, hok, rfl⟩, decodeCommand_encode (wellFormed_of_asmInstrOk hok)⟩
  · simp [assemble, AsmLine.expand, hbad]

theorem expand_copy_eq_some_iff {a d : Desc} {i : Instr} : (AsmLine.copy d a).expand = some i ↔
    (a.c = 1 ∧ d.c = 1 ∧ a.h = d.h ∧ a.w = d.w) ∧ i = .resize a d := by
  rw [AsmLine.expand, Option.ite_none_right_eq_some, Option.some.injEq, eq_comm (b := i)]

theorem resizeChecks_pass {p : Config} {a d : Desc} (h : ResizeLegal p a d) :
    firstFailing (resizeChecks p a d) = none := by
  obtain ⟨ha, hd, hfitA, hfitD, hapart⟩ := h
  simp [resizeChecks, checksAD, firstFailing, ha, hd, Desc.dimBad_false_of_fits hfitA, Desc.dimBad_false_of_fits hfitD,
    Desc.outOfBounds_false_of_fits hfitA, Desc.outOfBounds_false_of_fits hfitD, Desc.overlaps_false_of_apart hapart]

/-- Every index map is the identity at equal extents (R151). -/
theorem nn_self (k : NnMap) {d n : Nat} (hd : d < n) : nn k d n n = d := by
  cases k with
  | floorMap => exact Nat.mul_div_cancel d (by omega)
  | given rows => exact if_pos rfl

theorem resizeSample_same_size {a d : Desc} (hh : a.h = d.h) (hw : a.w = d.w) (s : State) {y x : Nat} (hy : y < d.h)
    (hx : x < d.w) (c : Nat) : resizeSample s a d y x c = s.sample a y x 0 := by
  rw [resizeSample, hh, hw, nn_self _ hy, nn_self _ hx]

/-- Settles O31: COPY is RESIZE at equal extents, where the index map is the identity. -/
theorem copyCopiesASingleChannelImage : Obligations.CopyCopiesASingleChannelImage := by
  intro a d c s hasm hlegal
  obtain ⟨i, hexpand, hok, rfl⟩ := assemble_eq_some_iff.1 hasm
  obtain ⟨⟨-, -, hh, hw⟩, rfl⟩ := expand_copy_eq_some_iff.1 hexpand
  refine ⟨.resize a d, decodeCommand_encode (wellFormed_of_asmInstrOk hok), ?_⟩
  refine completesWith_of_passing rfl (resizeChecks_pass hlegal) ?_
  rintro y x ch ⟨hy, hx, -⟩
  exact resizeSample_same_size hh hw s hy hx ch

end Sys2Proof.Machine
end

section
/-! SUPPORT. The Image Sampler: the laws of its index maps (R150 to R152), RESIZE (R157), and the order of the faults of
the commands with one source (R266). -/

namespace Sys2Proof.Machine

/-! The index maps: `nn_lt` and `nn_self` are the laws (a) and (b) of R151. -/

theorem runningMax_mono (f : Nat → Nat) {a b : Nat} (h : a ≤ b) : runningMax f a ≤ runningMax f b :=
  Laws.runningMax_le fun _ hi => Laws.le_runningMax f (Nat.le_trans hi h)

/-- Law (c) of R151. -/
theorem nn_mono (k : NnMap) {d1 d2 : Nat} (h : d1 ≤ d2) (dn sn : Nat) : nn k d1 dn sn ≤ nn k d2 dn sn := by
  cases k with
  | floorMap => exact Nat.div_le_div_right (Nat.mul_le_mul_right sn h)
  | given rows =>
    simp only [nn, lawfulNn]
    split
    · exact h
    · exact runningMax_mono _ h

/-- Settles O39: the default map by division, a given one by the cut and the running maximum of `lawfulNn`. -/
theorem indexMapsMeetTheirLaws : Obligations.IndexMapsMeetTheirLaws := fun k =>
  ⟨fun _ _ _ hd hsn => nn_lt k hd (Nat.one_le_iff_ne_zero.1 hsn), fun _ _ hd => nn_self k hd,
    fun _ _ dn sn h12 _ _ => nn_mono k h12 dn sn⟩

/-- Settles O40: the common factor cancels. -/
theorem defaultIndexMapAtIntegerRatios : Obligations.DefaultIndexMapAtIntegerRatios := by
  intro k d n _ hn
  constructor <;> intro _
  · exact Nat.mul_div_mul_right d k hn
  · rw [nn, floorNn, ← Nat.mul_assoc]
    exact Nat.mul_div_cancel (d * k) hn

/-- Settles O3: RESIZE is a data command whose rule is the resampled value. -/
theorem resizeCompletesAndResamples : Obligations.ResizeCompletesAndResamples := fun _ _ _ hlegal =>
  completesWith_of_passing rfl (resizeChecks_pass hlegal) fun _ _ _ _ => rfl

/-! The order of faults. R266 orders the codes; the checks with one code stand together, and any of them raises it. -/

/-- The checks of groups of checks, each group with its one code. -/
def groupedChecks (groups : List (List Bool × FCode)) : List (Bool × FCode) :=
  groups.flatMap fun g => g.1.map fun b => (b, g.2)

theorem firstFailing_group_failing {g : List Bool} (code : FCode) (h : ∃ b ∈ g, b = true) :
    firstFailing (g.map fun b => (b, code)) = some code := by
  cases hf : firstFailing (g.map fun b => (b, code)) with
  | none =>
    obtain ⟨b, hb, rfl⟩ := h
    exact absurd (firstFailing_eq_none.1 hf _ (List.mem_map_of_mem hb)) nofun
  | some code' =>
    obtain ⟨_, -, he⟩ := List.mem_map.1 (firstFailing_mem hf)
    exact congrArg some (Prod.mk.inj he).2.symm

theorem firstFailing_group_passing {g : List Bool} (code : FCode) (h : ¬ ∃ b ∈ g, b = true) :
    firstFailing (g.map fun b => (b, code)) = none := by
  simpa [firstFailing_eq_none] using h

/-- An outcome that faults at the first failing check of grouped checks takes the code of the first group in which a
check fails. -/
theorem faultsInOrder_of_groups {o : Host.Outcome State Fault Refusal} {s : State} {groups : List (List Bool × FCode)}
    (h : ∀ code, firstFailing (groupedChecks groups) = some code → o = .next (s.faulted code)) :
    FaultsInOrder o s (groups.map fun g => (∃ b ∈ g.1, b = true, g.2)) := by
  induction groups with
  | nil => trivial
  | cons g groups ih =>
    simp only [groupedChecks, List.flatMap_cons, firstFailing_append] at h
    refine ⟨fun hg => h g.2 ?_, fun hg => ih fun code hcode => h code ?_⟩
    · rw [firstFailing_group_failing g.2 hg, Option.some_or]
    · rw [firstFailing_group_passing g.2 hg, Option.none_or]
      exact hcode

theorem exec_of_failing {i : Instr} {d : Desc} {s : State} {code : FCode} (hd : i.dest = some d)
    (h : firstFailing (checksOf i s.cfg) = some code) : exec i s = .next (s.faulted code) :=
  (exec_eq_perform hd s).trans (perform_of_failing h)

theorem shapeDiffers_iff {x z : Desc} : x.shapeDiffers z = true ↔ ¬ x.SameSize z ∨ x.c ≠ z.c := by
  rw [Desc.shapeDiffers, Bool.or_eq_true, Desc.sizeDiffers_iff, bne_iff_ne]

/-- A command with one source faults in the order of R266 steps 6 to 10. -/
theorem faultsInOrder_of_checksAD {i : Instr} {a d : Desc} {s : State} {chA chD shape : Bool} (hd : i.dest = some d)
    (hchecks : checksOf i s.cfg = checksAD s.cfg.memSize chA chD shape a d) :
    FaultsInOrder (exec i s) s
      [(chA = true ∨ chD = true, .badChannels), (a.NoDim ∨ d.NoDim, .badDim), (shape = true, .shape),
       (a.Outside s.cfg ∨ d.Outside s.cfg, .bounds), (d.Meets a, .aliasing)] := by
  have hgroups : checksOf i s.cfg = groupedChecks
      [([chA, chD], .badChannels), ([a.dimBad, d.dimBad], .badDim), ([shape], .shape),
       ([a.outOfBounds s.cfg.memSize, d.outOfBounds s.cfg.memSize], .bounds), ([d.overlaps a], .aliasing)] := hchecks
  have horder := faultsInOrder_of_groups fun code hcode => exec_of_failing hd (hgroups ▸ hcode)
  simpa only [List.map_cons, List.map_nil, List.exists_mem_cons_iff, List.not_mem_nil, false_and, exists_false,
    or_false, Desc.dimBad_iff, Desc.outOfBounds_iff, Desc.overlaps_iff] using horder

/-- Settles O9: the two commands have the checks of one source and a destination; RESIZE's shape check never fails. -/
theorem oneSourceCommandsFaultInOrder : Obligations.OneSourceCommandsFaultInOrder := by
  intro t a d s
  constructor
  · have h := faultsInOrder_of_checksAD (i := .resize a d) (s := s) rfl rfl
    simpa only [FaultsInOrder, bne_iff_ne, Bool.false_eq_true, false_imp_iff, not_false_eq_true, true_and, true_imp_iff]
      using h
  · have h := faultsInOrder_of_checksAD (i := .binarize t a d) (s := s) rfl rfl
    simpa only [Desc.channelsBad_iff, shapeDiffers_iff] using h

end Sys2Proof.Machine
end

section
/-! SUPPORT. The binarizer (R170 to R174), and the completion of the commands that end in it: BINARIZE (R175) and EXTRACT
(R225). -/

namespace Sys2Proof

theorem Desc.channelsBad_false_of_legal {p : Config} {x : Desc} (h : x.ChannelsLegal p) : x.channelsBad p.cmax = false :=
  Bool.eq_false_iff.2 fun hbad => Desc.channelsBad_iff.1 hbad h

theorem Desc.ChannelsLegal.of_same_channels {p : Config} {x z : Desc} (h : x.ChannelsLegal p) (hc : z.c = x.c) :
    z.ChannelsLegal p := by
  rwa [Desc.ChannelsLegal, hc]

end Sys2Proof

namespace Sys2Proof.Machine

/-! The threshold function. -/

theorem bin_above {t : Nat} {v : Byte} (h : t < v.toNat) : bin t v = 255#8 := if_pos h

theorem bin_at_or_below {t : Nat} {v : Byte} (h : v.toNat ≤ t) : bin t v = 0#8 := if_neg (Nat.not_lt.2 h)

theorem bin_eq_zero_or_eq_255 (t : Nat) (v : Byte) : bin t v = 0#8 ∨ bin t v = 255#8 :=
  (Nat.lt_or_ge t v.toNat).symm.imp bin_at_or_below bin_above

/-- Settles O38: each clause compares a byte with `T`, and no byte is above 255. -/
theorem binarizerThreshold : Obligations.BinarizerThreshold := by
  refine ⟨fun t v => ⟨bin_above, bin_at_or_below⟩, bin_eq_zero_or_eq_255, fun t ht => ⟨?_, ?_⟩, fun v => ?_, ?_, ?_⟩
  · exact bin_at_or_below (Nat.zero_le t)
  · exact bin_above (Nat.lt_succ_of_le ht)
  · exact bin_at_or_below (Nat.le_of_lt_succ v.isLt)
  · exact bin_at_or_below (Nat.le_refl 0)
  · exact bin_above Nat.zero_lt_one

/-! Checks that pass: beside its channel and shape rules, a command needs its operands to fit the memory and its
destination to lie apart from its sources (R266 steps 6 to 10). -/

theorem checksAD_pass {p : Config} {chA chD shape : Bool} {a d : Desc} (hA : chA = false) (hD : chD = false)
    (hshape : shape = false) (hfitA : a.Fits p) (hfitD : d.Fits p) (hapart : d.Apart a) :
    firstFailing (checksAD p.memSize chA chD shape a d) = none := by
  simp only [checksAD, firstFailing, hA, hD, hshape, Desc.dimBad_false_of_fits hfitA, Desc.dimBad_false_of_fits hfitD,
    Desc.outOfBounds_false_of_fits hfitA, Desc.outOfBounds_false_of_fits hfitD, Desc.overlaps_false_of_apart hapart]

theorem checksABD_pass {p : Config} {chA chB chD shape : Bool} {a b d : Desc} (hA : chA = false) (hB : chB = false)
    (hD : chD = false) (hshape : shape = false) (hfitA : a.Fits p) (hfitB : b.Fits p) (hfitD : d.Fits p)
    (hapartA : d.Apart a) (hapartB : d.Apart b) :
    firstFailing (checksABD p.memSize chA chB chD shape a b d) = none := by
  simp only [checksABD, firstFailing, hA, hB, hD, hshape, Desc.dimBad_false_of_fits hfitA,
    Desc.dimBad_false_of_fits hfitB, Desc.dimBad_false_of_fits hfitD, Desc.outOfBounds_false_of_fits hfitA,
    Desc.outOfBounds_false_of_fits hfitB, Desc.outOfBounds_false_of_fits hfitD, Desc.overlaps_false_of_apart hapartA,
    Desc.overlaps_false_of_apart hapartB]

theorem binarizeChecks_pass {p : Config} {a d : Desc} (h : BinarizeLegal p a d) :
    firstFailing (binarizeChecks p a d) = none := by
  obtain ⟨hchan, hc, hsize, hfitA, hfitD, hapart⟩ := h
  exact checksAD_pass (Desc.channelsBad_false_of_legal hchan)
    (Desc.channelsBad_false_of_legal (hchan.of_same_channels hc)) (shapeDiffers_eq_false_iff.2 ⟨hsize, hc⟩)
    hfitA hfitD hapart

theorem extractChecks_pass {p : Config} {a b d : Desc} (h : ExtractLegal p a b d) :
    firstFailing (extractChecks p a b d) = none := by
  obtain ⟨hchan, hc, hsingle, hsize, hfitA, hfitB, hfitD, hapartA, hapartB⟩ := h
  exact checksABD_pass (Desc.channelsBad_false_of_legal hchan)
    (Desc.channelsBad_false_of_legal (hchan.of_same_channels hc)) (bne_eq_false_iff_eq.2 hsingle)
    (shapeDiffers_eq_false_iff.2 ⟨hsize, hc⟩) hfitA hfitB hfitD hapartA hapartB

/-- Settles O4: BINARIZE is a data command whose rule is the threshold of the source's sample. -/
theorem binarizeCompletesAndThresholds : Obligations.BinarizeCompletesAndThresholds := fun _ _ _ _ hlegal =>
  completesWith_of_passing rfl (binarizeChecks_pass hlegal) fun _ _ _ _ => rfl

/-- Settles O6: EXTRACT is a data command whose rule is the resampled combined bit, thresholded at 0. -/
theorem extractCompletesAndRecoversTheBitmap : Obligations.ExtractCompletesAndRecoversTheBitmap :=
  fun _ _ _ _ _ hlegal => completesWith_of_passing rfl (extractChecks_pass hlegal) fun _ _ _ _ => rfl

end Sys2Proof.Machine
end

section
/-! SUPPORT. The pixel codec: the one bit that a method exchanges with a sample (R190 to R204), the channel combinations
(R196, R197), and the ENCODE and DECODE commands (R200, R205, R208) with the faults of the commands with two sources. -/

namespace Sys2Proof.Machine

/-! The bit of a method. Encoder and decoder are one function of two bits: the encoder applies it to the watermark bit and
puts the result into the sample's lowest bit, the decoder applies it to the bit found there. -/

/-- What a method makes of a bit `b` where the carrier's lowest bit is `k`. -/
def methodBit (m : Method) (k b : Byte) : Byte :=
  match m with
  | .direct => b
  | .bitwiseAdd => k ^^^ b
  | .negatedBitwiseAdd => ~~~(k ^^^ b) &&& 1#8

theorem penc_eq (m : Method) (c w : Byte) : penc m c w = c &&& 0xFE#8 ||| methodBit m (lsb c) (wb w) := by
  cases m <;> rfl

theorem pdec_eq (m : Method) (v c : Byte) : pdec m v c = methodBit m (lsb c) (lsb v) := by
  cases m
  · rfl
  · exact BitVec.xor_comm _ _
  · rw [pdec, BitVec.xor_comm]
    rfl

theorem lsb_eq_zero_or_one (v : Byte) : lsb v = 0#8 ∨ lsb v = 1#8 := by
  rw [lsb, BitVec.and_one_eq_setWidth_ofBool_getLsbD]
  cases v.getLsbD 0 <;> decide

theorem wb_eq_zero_or_one (w : Byte) : wb w = 0#8 ∨ wb w = 1#8 := lsb_eq_zero_or_one w

/-- A method makes a bit of two bits, and undoes itself: the source's "Correctness argument" (R198). -/
theorem methodBit_of_bits (m : Method) {k b : Byte} (hk : k = 0#8 ∨ k = 1#8) (hb : b = 0#8 ∨ b = 1#8) :
    (methodBit m k b = 0#8 ∨ methodBit m k b = 1#8) ∧ methodBit m k (methodBit m k b) = b := by
  obtain rfl | rfl := hk <;> obtain rfl | rfl := hb <;> cases m <;> decide

theorem methodBit_eq_zero_or_one (m : Method) (c w : Byte) :
    methodBit m (lsb c) (wb w) = 0#8 ∨ methodBit m (lsb c) (wb w) = 1#8 :=
  (methodBit_of_bits m (lsb_eq_zero_or_one c) (wb_eq_zero_or_one w)).1

/-- The encoder's output above bit 0 is the carrier's (R199). -/
theorem penc_high (m : Method) (c w : Byte) : penc m c w &&& 0xFE#8 = c &&& 0xFE#8 := by
  have hbit : methodBit m (lsb c) (wb w) &&& 0xFE#8 = 0#8 := by
    obtain h | h := methodBit_eq_zero_or_one m c w <;> rw [h] <;> decide
  rw [penc_eq, BitVec.and_or_distrib_right, hbit, BitVec.or_zero, BitVec.and_assoc, BitVec.and_self]

/-- The encoder's output in bit 0 is the method's bit. -/
theorem lsb_penc (m : Method) (c w : Byte) : lsb (penc m c w) = methodBit m (lsb c) (wb w) := by
  have hbit : methodBit m (lsb c) (wb w) &&& 1#8 = methodBit m (lsb c) (wb w) := by
    obtain h | h := methodBit_eq_zero_or_one m c w <;> rw [h] <;> decide
  have hhigh : 0xFE#8 &&& 1#8 = 0#8 := by decide
  rw [lsb, penc_eq, BitVec.and_or_distrib_right, hbit, BitVec.and_assoc, hhigh, BitVec.and_zero, BitVec.zero_or]

/-- Decoding with any method applies it to the bit that the encoder's method left. -/
theorem pdec_penc (m m' : Method) (c w : Byte) :
    pdec m (penc m' c w) c = methodBit m (lsb c) (methodBit m' (lsb c) (wb w)) := by
  rw [pdec_eq, lsb_penc]

theorem pdec_penc_same (m : Method) (c w : Byte) : pdec m (penc m c w) c = wb w := by
  rw [pdec_penc]
  exact (methodBit_of_bits m (lsb_eq_zero_or_one c) (wb_eq_zero_or_one w)).2

/-- Settles O33: a method undoes itself. -/
theorem pixelDecodeInvertsPixelEncode : Obligations.PixelDecodeInvertsPixelEncode := pdec_penc_same

theorem xor_and_eq_zero_of_and_eq {v c mask : Byte} (h : v &&& mask = c &&& mask) : (v ^^^ c) &&& mask = 0#8 := by
  have hdistrib : (v ^^^ c) &&& mask = (v &&& mask) ^^^ (c &&& mask) := by
    ext i
    simp [Bool.and_xor_distrib_right]
  rw [hdistrib, h, BitVec.xor_self]

/-- The bits of a byte above bit 0, as a number. -/
theorem toNat_and_high_div_two (v : Byte) : (v &&& 0xFE#8).toNat / 2 = v.toNat / 2 := by
  have hv := v.isLt
  have hmask : (0xFE#8).toNat / 2 = 2 ^ 7 - 1 := rfl
  rw [BitVec.toNat_and, Nat.and_div_two, hmask, Nat.and_two_pow_sub_one_eq_mod]
  omega

/-- Settles O34: two bytes with the same bits above bit 0 are two numbers with the same half. -/
theorem pixelEncodeChangesOnlyTheLowestBit : Obligations.PixelEncodeChangesOnlyTheLowestBit := by
  intro m c w
  have hhigh := penc_high m c w
  have hhalf : (penc m c w).toNat / 2 = c.toNat / 2 := by
    rw [← toNat_and_high_div_two, hhigh, toNat_and_high_div_two]
  exact ⟨hhigh, xor_and_eq_zero_of_and_eq hhigh, by omega, by omega⟩

/-- Settles O35: `lsb_penc`, at each carrier bit and watermark bit. -/
theorem pixelEncodeOutputLsbByMethod : Obligations.PixelEncodeOutputLsbByMethod := by
  intro c w
  simp only [lsb_penc]
  refine ⟨?_, ?_, ?_, ?_⟩ <;> intro hc hw <;> rw [hc, hw] <;> decide

/-- Settles O36: the decoder is `methodBit` of the two lowest bits. -/
theorem pixelDecodeTruthTable : Obligations.PixelDecodeTruthTable := by
  intro v c
  simp only [pdec_eq]
  refine ⟨?_, ?_, ?_, ?_⟩ <;> intro hv hc <;> rw [hv, hc] <;> decide

/-- Settles O37: two methods, one after the other, on each carrier bit and each watermark bit. -/
theorem wrongMethodDecoding : Obligations.WrongMethodDecoding := by
  intro c w
  simp only [pdec_penc]
  obtain hc | hc := lsb_eq_zero_or_one c <;> obtain hw | hw := wb_eq_zero_or_one w <;> rw [hc, hw] <;> decide

/-! The channel combinations (R197). -/

/-- Law (a): the combination of bits is a bit. -/
theorem combine_eq_zero_or_one (k : Combine) {bits : List Byte} (hbits : ∀ b ∈ bits, b = 0#8 ∨ b = 1#8) :
    combine k bits = 0#8 ∨ combine k bits = 1#8 := by
  cases bits with
  | nil => cases k <;> exact .inl rfl
  | cons b rest =>
    have hb := hbits b List.mem_cons_self
    cases k with
    | channel0 => exact hb
    | given ones =>
      rw [combine, unanimousOr]
      split
      · exact hb
      · split
        · exact .inr rfl
        · exact .inl rfl

/-- Law (b), unanimity. -/
theorem combine_of_unanimous (k : Combine) {bits : List Byte} {b : Byte} (hne : bits ≠ [])
    (h : ∀ b' ∈ bits, b' = b) : combine k bits = b := by
  obtain ⟨b0, rest, rfl⟩ := List.exists_cons_of_ne_nil hne
  obtain ⟨rfl, hrest⟩ := List.forall_mem_cons.1 h
  cases k with
  | channel0 => rfl
  | given ones => exact if_pos (List.all_eq_true.2 fun b' hb' => beq_iff_eq.2 (hrest b' hb'))

/-- Settles O41: one channel is unanimous. -/
theorem combinationsMeetTheirLaws : Obligations.CombinationsMeetTheirLaws := by
  intro k bits hne hbits
  refine ⟨combine_eq_zero_or_one k hbits, fun b => combine_of_unanimous k hne, ?_⟩
  rintro b rfl
  exact combine_of_unanimous k hne (by simp)

/-! The ENCODE and DECODE commands. -/

theorem encodeChecks_pass {p : Config} {a b d : Desc} (h : EncodeLegal p a b d) :
    firstFailing (encodeChecks p a b d) = none := by
  obtain ⟨hchan, hsingle, hc, hsizeB, hsizeD, hfitA, hfitB, hfitD, hapartA, hapartB⟩ := h
  have hshape : (b.sizeDiffers a || d.shapeDiffers a) = false :=
    Bool.or_eq_false_iff.2 ⟨sizeDiffers_eq_false_iff.2 hsizeB, shapeDiffers_eq_false_iff.2 ⟨hsizeD, hc⟩⟩
  exact checksABD_pass (Desc.channelsBad_false_of_legal hchan) (bne_eq_false_iff_eq.2 hsingle)
    (Desc.channelsBad_false_of_legal (hchan.of_same_channels hc)) hshape hfitA hfitB hfitD hapartA hapartB

theorem decodeChecks_pass {p : Config} {a b d : Desc} (h : DecodeLegal p a b d) :
    firstFailing (decodeChecks p a b d) = none := by
  obtain ⟨hchan, hc, hsingle, hsizeB, hsizeD, hfitA, hfitB, hfitD, hapartA, hapartB⟩ := h
  have hshape : (b.shapeDiffers a || d.sizeDiffers a) = false :=
    Bool.or_eq_false_iff.2 ⟨shapeDiffers_eq_false_iff.2 ⟨hsizeB, hc⟩, sizeDiffers_eq_false_iff.2 hsizeD⟩
  exact checksABD_pass (Desc.channelsBad_false_of_legal hchan)
    (Desc.channelsBad_false_of_legal (hchan.of_same_channels hc)) (bne_eq_false_iff_eq.2 hsingle) hshape
    hfitA hfitB hfitD hapartA hapartB

/-- Settles O1: ENCODE is a data command whose rule is `penc` of the two samples. -/
theorem encodeCompletesAndEmbedsEverySample : Obligations.EncodeCompletesAndEmbedsEverySample :=
  fun _ _ _ _ _ hlegal => completesWith_of_passing rfl (encodeChecks_pass hlegal) fun _ _ _ _ => rfl

/-- Settles O2: DECODE is a data command whose rule is the combined bit of the pixel. -/
theorem decodeCompletesAndRecoversEveryBit : Obligations.DecodeCompletesAndRecoversEveryBit :=
  fun _ _ _ _ _ hlegal => completesWith_of_passing rfl (decodeChecks_pass hlegal) fun _ _ _ _ => rfl

/-! The order of faults. -/

/-- A command with two sources faults in the order of R266 steps 6 to 10. -/
theorem faultsInOrder_of_checksABD {i : Instr} {a b d : Desc} {s : State} {chA chB chD shape : Bool}
    (hd : i.dest = some d) (hchecks : checksOf i s.cfg = checksABD s.cfg.memSize chA chB chD shape a b d) :
    FaultsInOrder (exec i s) s
      [(chA = true ∨ chB = true ∨ chD = true, .badChannels), (a.NoDim ∨ b.NoDim ∨ d.NoDim, .badDim),
       (shape = true, .shape), (a.Outside s.cfg ∨ b.Outside s.cfg ∨ d.Outside s.cfg, .bounds),
       (d.Meets a ∨ d.Meets b, .aliasing)] := by
  have hgroups : checksOf i s.cfg = groupedChecks
      [([chA, chB, chD], .badChannels), ([a.dimBad, b.dimBad, d.dimBad], .badDim), ([shape], .shape),
       ([a.outOfBounds s.cfg.memSize, b.outOfBounds s.cfg.memSize, d.outOfBounds s.cfg.memSize], .bounds),
       ([d.overlaps a, d.overlaps b], .aliasing)] := hchecks
  have horder := faultsInOrder_of_groups fun code hcode => exec_of_failing hd (hgroups ▸ hcode)
  simpa only [List.map_cons, List.map_nil, List.exists_mem_cons_iff, List.not_mem_nil, false_and, exists_false,
    or_false, Desc.dimBad_iff, Desc.outOfBounds_iff, Desc.overlaps_iff] using horder

/-- Settles O8: the four commands differ in their channel rules and their shape rules only. -/
theorem twoSourceCommandsFaultInOrder : Obligations.TwoSourceCommandsFaultInOrder := by
  intro m a b d s
  refine ⟨?_, ?_, ?_, ?_⟩
  · have h := faultsInOrder_of_checksABD (i := .encode m a b d) (s := s) rfl rfl
    simpa only [Bool.or_eq_true, Desc.channelsBad_iff, bne_iff_ne, Desc.sizeDiffers_iff, shapeDiffers_iff] using h
  · have h := faultsInOrder_of_checksABD (i := .decode m a b d) (s := s) rfl rfl
    simpa only [Bool.or_eq_true, Desc.channelsBad_iff, bne_iff_ne, Desc.sizeDiffers_iff, shapeDiffers_iff, or_assoc]
      using h
  · have h := faultsInOrder_of_checksABD (i := .embed m a b d) (s := s) rfl rfl
    simpa only [Desc.channelsBad_iff, bne_iff_ne, shapeDiffers_iff] using h
  · have h := faultsInOrder_of_checksABD (i := .extract m a b d) (s := s) rfl rfl
    simpa only [Desc.channelsBad_iff, bne_iff_ne, shapeDiffers_iff] using h

/-! The round trip. -/

/-- What a completed command leaves to the next one: the parameters, its destination's samples and its sources'
samples (R95). -/
theorem CompletesWith.exists_next {i : Instr} {s : State} {d : Desc} {f : (y x c : Nat) → Byte}
    (h : CompletesWith i s d f) : ∃ t, exec i s = .next t ∧ t.cfg = s.cfg ∧
      (∀ y x c, d.Has y x c → t.sample d y x c = f y x c) ∧
      (∀ im ∈ i.sources, ∀ y x c, im.Has y x c → t.sample im y x c = s.sample im y x c) := by
  obtain ⟨m, hexec, hdest, -⟩ := h
  exact ⟨s.completed m, hexec, rfl, hdest, fun im him y x c hhas =>
    sourcesAreNeverWritten i s _ im _ hexec him (Desc.covers_addr hhas)⟩

/-- A pixel with the same watermark sample embedded in each of its channels decodes to the watermark bit, for every
combination: its channels agree. -/
theorem pixelBit_of_embedded {s : State} {m : Method} {a b : Desc} {y x : Nat} {w : Byte} (hchan : 1 ≤ a.c)
    (h : ∀ c, c < a.c → s.sample a y x c = penc m (s.sample b y x c) w) : pixelBit s m a b y x = wb w := by
  refine combine_of_unanimous _ ?_ fun bit hbit => ?_
  · rw [Ne, List.map_eq_nil_iff, List.range_eq_nil]
    omega
  · obtain ⟨c, hc, rfl⟩ := List.mem_map.1 hbit
    rw [h c (List.mem_range.1 hc), pdec_penc_same]

/-- Settles O43: ENCODE embeds the watermark sample in every channel and leaves the carrier, which DECODE reads, as it
was. -/
theorem planeRoundTrip : Obligations.PlaneRoundTrip := by
  intro m a b d e s henc hdec
  obtain ⟨t, hexecT, hcfg, hembedded, hkept⟩ :=
    (encodeCompletesAndEmbedsEverySample m a b d s henc).exists_next
  obtain ⟨u, hexecU, -, hdecoded, -⟩ :=
    (decodeCompletesAndRecoversEveryBit m d a e t (hcfg.symm ▸ hdec)).exists_next
  refine ⟨t, u, hexecT, hexecU, fun y x hy hx => ?_⟩
  obtain ⟨hchan, -, hdc, -, ⟨hdh, hdw⟩, -⟩ := henc
  obtain ⟨-, -, hec, -, ⟨heh, hew⟩, -⟩ := hdec
  calc u.sample e y x 0
      = pixelBit t m d a y x := hdecoded y x 0 ⟨by omega, by omega, by omega⟩
    _ = wb (s.sample b y x 0) := pixelBit_of_embedded (by omega) fun c hc => by
        rw [hembedded y x c ⟨by omega, by omega, hc⟩,
          hkept a (by simp [Instr.sources]) y x c ⟨hy, hx, by omega⟩]

end Sys2Proof.Machine
end

section
/-! SUPPORT. The orchestrators (R220 to R232): the completion of EMBED, what embedding leaves of the carrier, each
orchestrator as a sequence of primitives, and the round trip of EMBED and EXTRACT. -/

namespace Sys2Proof.Machine

theorem embedChecks_pass {p : Config} {a b d : Desc} (h : EmbedLegal p a b d) :
    firstFailing (embedChecks p a b d) = none := by
  obtain ⟨hchan, hsingle, hc, hsize, hfitA, hfitB, hfitD, hapartA, hapartB⟩ := h
  exact checksABD_pass (Desc.channelsBad_false_of_legal hchan) (bne_eq_false_iff_eq.2 hsingle)
    (Desc.channelsBad_false_of_legal (hchan.of_same_channels hc)) (shapeDiffers_eq_false_iff.2 ⟨hsize, hc⟩)
    hfitA hfitB hfitD hapartA hapartB

/-- Settles O5: EMBED is a data command whose rule is `penc` of the carrier's sample and the resampled watermark's. -/
theorem embedCompletesAndEmbedsTheResampledWatermark : Obligations.EmbedCompletesAndEmbedsTheResampledWatermark :=
  fun _ _ _ _ _ hlegal => completesWith_of_passing rfl (embedChecks_pass hlegal) fun _ _ _ _ => rfl

/-! What embedding leaves of the carrier (R232). -/

/-- A command that writes pixel-encoded samples of `a` changes only their lowest bit, whatever it embeds. -/
theorem perturbsOnlyTheLowestBit_of_penc {i : Instr} {s : State} {m : Method} {a d : Desc} {w : (y x c : Nat) → Byte}
    (h : CompletesWith i s d fun y x c => penc m (s.sample a y x c) (w y x c)) :
    ∃ t, exec i s = .next t ∧
      ∀ y x c, d.Has y x c → (t.sample d y x c ^^^ s.sample a y x c) &&& 0xFE#8 = 0#8 := by
  obtain ⟨t, hexec, -, hembedded, -⟩ := h.exists_next
  refine ⟨t, hexec, fun y x c hhas => ?_⟩
  rw [hembedded y x c hhas]
  exact xor_and_eq_zero_of_and_eq (penc_high m _ _)

/-- Settles O42: both commands write pixel-encoded samples of the carrier. -/
theorem embeddingPerturbsOnlyTheLowestBit : Obligations.EmbeddingPerturbsOnlyTheLowestBit := fun m a b d s =>
  ⟨fun hlegal => perturbsOnlyTheLowestBit_of_penc (embedCompletesAndEmbedsTheResampledWatermark m a b d s hlegal),
    fun hlegal => perturbsOnlyTheLowestBit_of_penc (encodeCompletesAndEmbedsEverySample m a b d s hlegal)⟩

/-! The orchestrators as sequences of primitives (R221, R226). -/

/-- States with the same samples of an image hold the same bytes in its region. -/
theorem byte_eq_of_sample_eq {t u : State} {d : Desc}
    (h : ∀ y x c, d.Has y x c → t.sample d y x c = u.sample d y x c) {address : Nat}
    (hcover : d.covers address = true) : t.byte address = u.byte address := by
  obtain ⟨y, x, c, hhas, rfl⟩ := Desc.exists_sample_of_covers hcover
  exact h y x c hhas

/-- A memory change confined to a region leaves the samples of an image apart from it. -/
theorem sample_eq_of_apart {s t : State} {d im : Desc}
    (h : ∀ address, d.covers address = false → t.byte address = s.byte address) (hapart : d.Apart im)
    {y x c : Nat} (hhas : im.Has y x c) : t.sample im y x c = s.sample im y x c :=
  h _ (Desc.covers_false_of_apart hapart (Desc.covers_addr hhas))

/-- Settles O46: the scratch plane holds at each pixel the watermark sample that EMBED looks up there, and RESIZE leaves
the carrier as it was. -/
theorem embedEqualsResizeThenEncode : Obligations.EmbedEqualsResizeThenEncode := by
  intro m a b d p s hembed hsize hpc hfitP hapartA hapartB hapartD
  obtain ⟨m', hexecU, hembedded, houtsideU⟩ := embedCompletesAndEmbedsTheResampledWatermark m a b d s hembed
  obtain ⟨hchan, hbc, hdc, ⟨hdh, hdw⟩, hfitA, hfitB, hfitD, hdA, -⟩ := hembed
  obtain ⟨m1, hexec1, hresized, houtside1⟩ :=
    resizeCompletesAndResamples b p s ⟨hbc, hpc, hfitB, hfitP, hapartB⟩
  obtain ⟨m2, hexec2, hencoded, houtside2⟩ := encodeCompletesAndEmbedsEverySample m a p d (s.completed m1)
    ⟨hchan, hpc, hdc, hsize, ⟨hdh, hdw⟩, hfitA, hfitP, hfitD, hdA, Or.symm hapartD⟩
  obtain ⟨hph, hpw⟩ := hsize
  refine ⟨_, _, _, hexec1, hexec2, hexecU, fun _ => byte_eq_of_sample_eq fun y x c hhas => ?_, houtsideU,
    fun address hd hp => (houtside2 address hd).trans (houtside1 address hp)⟩
  have ⟨hy, hx, hc⟩ := hhas
  have hcarrier : (s.completed m1).sample a y x c = s.sample a y x c :=
    sample_eq_of_apart houtside1 hapartA ⟨by omega, by omega, by omega⟩
  have hscratch : (s.completed m1).sample p y x 0 = resizeSample s b a y x 0 := by
    rw [resizeSample, ← hph, ← hpw]
    exact hresized y x 0 ⟨by omega, by omega, by omega⟩
  calc ((s.completed m1).completed m2).sample d y x c
      = penc m ((s.completed m1).sample a y x c) ((s.completed m1).sample p y x 0) := hencoded y x c hhas
    _ = penc m (s.sample a y x c) (resizeSample s b a y x 0) := by rw [hcarrier, hscratch]
    _ = (s.completed m').sample d y x c := (hembedded y x c hhas).symm

/-- Settles O47: decoding is per pixel, so the pixels that EXTRACT decodes hold the same bits in the full bit field. -/
theorem extractEqualsItsPrimitives : Obligations.ExtractEqualsItsPrimitives := by
  intro m a b d f g s hextract hsizeF hfc hfitF hapartFA hapartFB _ hsizeG hgc hfitG _ _ hapartGD hapartGF
  obtain ⟨u, hexecU, -, hextracted, -⟩ :=
    (extractCompletesAndRecoversTheBitmap m a b d s hextract).exists_next
  obtain ⟨hchan, hbc, hdc, hsizeB, hfitA, hfitB, hfitD, -, -⟩ := hextract
  obtain ⟨t1, hexec1, hcfg1, hdecoded, -⟩ := (decodeCompletesAndRecoversEveryBit m a b f s
    ⟨hchan, hbc, hfc, hsizeB, hsizeF, hfitA, hfitB, hfitF, hapartFA, hapartFB⟩).exists_next
  obtain ⟨t2, hexec2, hcfg2, hresized, -⟩ :=
    (resizeCompletesAndResamples f g t1 (hcfg1.symm ▸ ⟨hfc, hgc, hfitF, hfitG, hapartGF⟩)).exists_next
  have hcfg : t2.cfg = s.cfg := hcfg2.trans hcfg1
  have hchanG : g.ChannelsLegal s.cfg := ⟨by omega, by omega⟩
  have hbinarize : BinarizeLegal s.cfg g d :=
    ⟨hchanG, hdc.trans hgc.symm, hsizeG.imp Eq.symm Eq.symm, hfitG, hfitD, Or.symm hapartGD⟩
  obtain ⟨t3, hexec3, -, hbinarized, -⟩ :=
    (binarizeCompletesAndThresholds 0 g d t2 (hcfg.symm ▸ hbinarize)).exists_next
  refine ⟨t1, t2, t3, u, hexec1, hexec2, hexec3, hexecU, fun _ => byte_eq_of_sample_eq fun v x c hhas => ?_⟩
  obtain ⟨hgh, hgw⟩ := hsizeG
  obtain ⟨hfh, hfw⟩ := hsizeF
  have ⟨hv, hx, hc⟩ := hhas
  obtain rfl : c = 0 := by omega
  obtain ⟨hah, haw, -⟩ := hfitA
  have hrow : nn s.cfg.nnMap v d.h a.h < f.h := hfh ▸ nn_lt _ hv (by omega)
  have hcol : nn s.cfg.nnMap x d.w a.w < f.w := hfw ▸ nn_lt _ hx (by omega)
  have hresizedBit : t2.sample g v x 0 =
      t1.sample f (nn s.cfg.nnMap v d.h a.h) (nn s.cfg.nnMap x d.w a.w) 0 := by
    rw [hresized v x 0 ⟨by omega, by omega, by omega⟩, hcfg1, hgh, hgw, hfh, hfw]
  calc t3.sample d v x 0
      = bin 0 (t2.sample g v x 0) := hbinarized v x 0 hhas
    _ = bin 0 (pixelBit s m a b (nn s.cfg.nnMap v d.h a.h) (nn s.cfg.nnMap x d.w a.w)) := by
        rw [hresizedBit, hdecoded _ _ 0 ⟨hrow, hcol, by omega⟩]
        rfl
    _ = u.sample d v x 0 := (hextracted v x 0 hhas).symm

/-! The round trip (R230, R231). -/

/-- The extraction threshold turns the watermark bit of a binary sample back into the sample (R230). -/
theorem bin_wb_of_binary {w : Byte} (h : w = 0#8 ∨ w = 255#8) : bin 0 (wb w) = w := by
  obtain rfl | rfl := h <;> decide

/-- The bitmap that EXTRACT recovers from an EMBED, before any assumption on the watermark. -/
theorem extract_recovers_of_embed {m : Method} {a b d e : Desc} {s : State} (hembed : EmbedLegal s.cfg a b d)
    (hextract : ExtractLegal s.cfg d a e) (hsize : e.SameSize b) :
    ∃ t u, exec (.embed m a b d) s = .next t ∧ exec (.extract m d a e) t = .next u ∧
      ∀ v x, v < b.h → x < b.w → u.sample e v x 0 =
        bin 0 (wb (resizeSample s b a (nn s.cfg.nnMap v b.h a.h) (nn s.cfg.nnMap x b.w a.w) 0)) := by
  obtain ⟨t, hexecT, hcfg, hembedded, hkept⟩ :=
    (embedCompletesAndEmbedsTheResampledWatermark m a b d s hembed).exists_next
  obtain ⟨u, hexecU, -, hextracted, -⟩ :=
    (extractCompletesAndRecoversTheBitmap m d a e t (hcfg.symm ▸ hextract)).exists_next
  refine ⟨t, u, hexecT, hexecU, fun v x hv hx => ?_⟩
  obtain ⟨⟨hchan, -⟩, -, hdc, ⟨hdh, hdw⟩, ⟨hah, haw, -⟩, -⟩ := hembed
  obtain ⟨-, -, hec, -⟩ := hextract
  obtain ⟨heh, hew⟩ := hsize
  have hrow : nn s.cfg.nnMap v b.h a.h < a.h := nn_lt _ hv (by omega)
  have hcol : nn s.cfg.nnMap x b.w a.w < a.w := nn_lt _ hx (by omega)
  have hpixel : pixelBit t m d a (nn s.cfg.nnMap v b.h a.h) (nn s.cfg.nnMap x b.w a.w) =
      wb (resizeSample s b a (nn s.cfg.nnMap v b.h a.h) (nn s.cfg.nnMap x b.w a.w) 0) :=
    pixelBit_of_embedded (by omega) fun c hc => by
      rw [hembedded _ _ c ⟨by omega, by omega, hc⟩,
        hkept a (by simp [Instr.sources]) _ _ c ⟨hrow, hcol, by omega⟩]
      rfl
  calc u.sample e v x 0
      = bin 0 (pixelBit t m d a (nn t.cfg.nnMap v e.h d.h) (nn t.cfg.nnMap x e.w d.w)) :=
        hextracted v x 0 ⟨by omega, by omega, by omega⟩
    _ = bin 0 (wb (resizeSample s b a (nn s.cfg.nnMap v b.h a.h) (nn s.cfg.nnMap x b.w a.w) 0)) := by
        rw [hcfg, heh, hew, hdh, hdw, hpixel]

/-- Settles O44: a binary watermark's samples survive the watermark bit and the threshold. -/
theorem embedExtractRoundTrip : Obligations.EmbedExtractRoundTrip := by
  intro m a b d e s hembed hextract hsize
  obtain ⟨t, u, hexecT, hexecU, hrecovered⟩ := extract_recovers_of_embed (m := m) hembed hextract hsize
  refine ⟨t, u, hexecT, hexecU, hrecovered, fun hbinary v x hv hx => ?_⟩
  obtain ⟨-, -, -, -, ⟨hah, haw, -⟩, -⟩ := hembed
  rw [hrecovered v x hv hx]
  exact bin_wb_of_binary (hbinary _ _ (nn_lt _ (nn_lt _ hv (by omega)) (by omega))
    (nn_lt _ (nn_lt _ hx (by omega)) (by omega)))

/-- Up by an integer ratio and down again is the identity (R156). -/
theorem nn_floorMap_up_down {k n d : Nat} (hk : 1 ≤ k) (hd : d < n) :
    nn .floorMap (nn .floorMap d n (k * n)) (k * n) n = d := by
  have hup : nn .floorMap d n (k * n) = d * k := (defaultIndexMapAtIntegerRatios k d n hk (by omega)).2 hd
  have hlt : d * k < k * n := Nat.mul_comm k n ▸ Nat.mul_lt_mul_of_pos_right hd hk
  rw [hup, (defaultIndexMapAtIntegerRatios k (d * k) n hk (by omega)).1 hlt, Nat.mul_div_cancel d hk]

/-- Settles O45: at integer ratios the two index maps of the round trip cancel. -/
theorem exactRecoveryAtIntegerRatios : Obligations.ExactRecoveryAtIntegerRatios := by
  intro m a b d e s k l hmap hembed hextract hsize hk hl hh hw hbinary
  obtain ⟨t, u, hexecT, hexecU, -, hrecovered⟩ := embedExtractRoundTrip m a b d e s hembed hextract hsize
  refine ⟨t, u, hexecT, hexecU, fun v x hv hx => ?_⟩
  rw [hrecovered hbinary v x hv hx, hmap, hh, hw, nn_floorMap_up_down hk hv, nn_floorMap_up_down hl hx]

end Sys2Proof.Machine
end

section
/-! SUPPORT. Sequencing: the bytes at CUR are what the decoder reads (R73, R241), a step of a busy sequencer completes a
command or ends the run (R244, R245, R262), and every run is short (R246). -/

namespace Sys2Proof

/-- Word `i` of 32 bytes given by a function of their index. -/
theorem wordOfBytes_map_range (f : Nat → Byte) {i : Nat} (hi : i < 8) :
    wordOfBytes ((List.range 32).map f) i = BitVec.ofNat 32 (leNat ((List.range 4).map fun j => f (4 * i + j))) := by
  have h : (((List.range 32).map f).drop (4 * i)).take 4 = (List.range 4).map fun j => f (4 * i + j) :=
    List.ext_getElem (by simp; omega) fun j _ _ => by simp
  rw [wordOfBytes, h]

theorem decodeBytes_of_decodeTableWord {nbits w : Nat} {i : Instr} (h : decodeTableWord nbits w = some i) :
    (decodeBytes (leBytes 32 (w % 2 ^ nbits))).1 = .instr i := by
  rw [decodeTableWord] at h
  split at h
  · rename_i j hj
    rw [hj, Option.some.inj h]
  · cases h

end Sys2Proof

namespace Sys2Proof.Machine

/-! A step runs the command whose bytes stand at CUR. -/

/-- The 32 bytes at CUR (R110, R241). -/
def State.fetchBytes (s : State) : List Byte := (List.range 32).map fun k => s.byte (s.cur.toNat + k)

theorem wordOfBytes_fetchBytes (s : State) {i : Nat} (hi : i < 8) : wordOfBytes s.fetchBytes i = s.commandWord i := by
  simp only [State.fetchBytes, wordOfBytes_map_range _ hi, State.commandWord, State.memRead, Nat.add_assoc]

theorem commandOfBytes_fetchBytes (s : State) : commandOfBytes s.fetchBytes = s.fetchCommand := by
  simp [commandOfBytes, State.fetchCommand, wordOfBytes_fetchBytes]

/-- Decoding the bytes at CUR is decoding the words that the sequencer latches. -/
theorem decodeBytes_fetchBytes (s : State) : (decodeBytes s.fetchBytes).1 = decodeCommand s.fetchCommand := by
  have hlong : ¬ s.fetchBytes.length < 32 := by simp [State.fetchBytes]
  rw [decodeBytes, if_neg hlong, commandOfBytes_fetchBytes]

/-- A host that pauses lets the sequencer take its step (log 6). -/
theorem step_of_pause {s : State} {rest : List HostMove} (h : s.inbox = .pause :: rest) :
    step s = sequencerStep { s with inbox := rest } := by
  simp only [step, machineStep, h, hostMove]

/-- Settles O13: the decoder reads the same instruction from the bytes at CUR as from the latched words. -/
theorem aStepRunsTheDecodedCommand : Obligations.AStepRunsTheDecodedCommand := by
  intro s i hb hcur hdecode
  have hfetch : s.fetchable = true := decide_eq_true hcur
  have hcommand : decodeCommand s.fetchCommand = .instr i := (decodeBytes_fetchBytes s).symm.trans hdecode
  refine ⟨fun hin => ?_, fun rest hin => ?_⟩
  · rw [step_of_inbox_nil hin, sequencerStep_instr hb hfetch hcommand]
  · rw [step_of_pause hin]
    exact sequencerStep_instr (s := { s with inbox := rest }) hb hfetch hcommand

/-- The bytes of `MemWrite(a, n, v)`, read back one by one (R72). -/
theorem bytes_of_writeLe {s : State} {m : Memory} {a n v : Nat} (h : s.mem = Memory.writeLe m a n v) :
    ((List.range n).map fun k => s.byte (a + k)) = leBytes n v := by
  refine List.ext_getElem (by simp) fun k _ hk => ?_
  rw [List.getElem_map, List.getElem_range, State.byte, h, writeLe_eq_putAll]
  exact Memory.byteOr_of_look (Memory.look_putAll_mem (writeLeCells_nodup a n v) (mem_writeLeCells hk)) _

/-- Settles O32: the bytes placed at CUR are the ones the decoder was given, and they fit in memory there. -/
theorem aPlacedWordRunsNext : Obligations.APlacedWordRunsNext := by
  intro s nbits w i hlegal hdecode
  have hfits : s.placeAddress.toNat + 32 ≤ s.cfg.memSize := placeAddress_fits hlegal.1.1
  have hbytes : (s.withFetchWord nbits w).fetchBytes = leBytes 32 (w % 2 ^ nbits) :=
    bytes_of_writeLe (State.placeCommand_mem s nbits w)
  have hplaced : (decodeBytes (s.withFetchWord nbits w).fetchBytes).1 = .instr i := by
    rw [hbytes, decodeBytes_of_decodeTableWord hdecode]
  exact (aStepRunsTheDecodedCommand (s.withFetchWord nbits w) i rfl hfits hplaced).1 rfl

/-! How a run goes on, and how it ends. -/

/-- Settles O7: END writes STATE and leaves no command in progress. -/
theorem endFinishesTheRun : Obligations.EndFinishesTheRun := fun _ => rfl

/-- A step of a busy sequencer after which the run is over was an END or a fault: it wrote nothing. -/
theorem ended_of_not_busy {s t : State} (hb : s.run = .busy) (h : sequencerStep s = .next t) (ht : t.run ≠ .busy) :
    t = s.finish ∨ ∃ code, t = s.faulted code := by
  obtain ⟨hrest, -⟩ | ⟨-, -, rfl⟩ | ⟨-, -, r, -, rfl⟩ | ⟨-, -, i, -, hexec⟩ := sequencerStep_cases h
  · exact absurd hb hrest
  · exact .inr ⟨_, rfl⟩
  · exact .inr ⟨_, rfl⟩
  · obtain ⟨-, rfl⟩ | ⟨code, -, rfl⟩ | ⟨d, -, -, rfl⟩ := exec_cases hexec
    · exact .inl rfl
    · exact .inr ⟨code, rfl⟩
    · exact absurd hb ht

/-- CUR does not wrap at a command that fits in memory (R246). -/
theorem completed_cur_toNat {s : State} (hlegal : s.cfg.Legal) (hfits : s.cur.toNat + 32 ≤ s.cfg.memSize)
    (m : Memory) : (s.completed m).cur.toNat = s.cur.toNat + 32 := by
  obtain ⟨⟨-, hsize⟩, -⟩ := hlegal
  rw [State.completed_cur, BitVec.toNat_add, BitVec.toNat_ofNat]
  omega

/-- Settles O16: the step completes a command that fits in memory, or it is an END or a fault. -/
theorem aBusyStepAdvancesOrEndsTheRun : Obligations.ABusyStepAdvancesOrEndsTheRun := by
  intro s hlegal hin hb
  obtain ⟨t, hseq⟩ := sequencerStep_answers s
  refine ⟨t, (step_of_inbox_nil hin).trans hseq, ?_⟩
  by_cases ht : t.run = .busy
  · obtain ⟨-, hfits, m, rfl⟩ := completed_of_busy hseq ht
    have hcur := completed_cur_toNat hlegal hfits m
    exact .inl ⟨ht, hcur, hcur ▸ hfits, rfl⟩
  · obtain rfl | ⟨code, rfl⟩ := ended_of_not_busy hb hseq ht
    · exact .inr ⟨.inl rfl, rfl, rfl, rfl⟩
    · exact .inr ⟨.inr rfl, rfl, rfl, rfl⟩

/-- A run with no host move due answers a next state at every length. -/
theorem run_answers {s : State} (hin : s.inbox = []) (k : Nat) :
    ∃ u, Host.Core.run Sys2Proof.core k s = .next u := by
  induction k generalizing s with
  | zero => exact ⟨s, rfl⟩
  | succ k ih =>
    obtain ⟨t, hseq⟩ := sequencerStep_answers s
    rw [run_succ hin hseq]
    exact ih ((sequencerStep_keeps_inbox hseq).trans hin)

/-- The commands of a run still in progress all fit in memory, one after another from CUR on (R246). -/
theorem run_busy_fits {s u : State} {k : Nat} (hlegal : s.cfg.Legal) (hin : s.inbox = [])
    (h : Host.Core.run Sys2Proof.core (k + 1) s = .next u) (hu : u.run = .busy) :
    s.cur.toNat + 32 * (k + 1) ≤ s.cfg.memSize := by
  induction k generalizing s with
  | zero => exact (run_succ_busy hin h hu).1
  | succ k ih =>
    obtain ⟨hfits, m, hrest⟩ := run_succ_busy hin h hu
    have hcur := completed_cur_toNat hlegal hfits m
    have hlater : (s.completed m).cur.toNat + 32 * (k + 1) ≤ s.cfg.memSize :=
      ih (s := s.completed m) hlegal hin hrest
    omega

/-- Settles O17: a run still in progress after that many steps would hold a command outside the memory. -/
theorem everyRunEnds : Obligations.EveryRunEnds := by
  intro s hlegal hin _
  obtain ⟨u, hrun⟩ := run_answers hin ((s.cfg.memSize - s.cur.toNat) / 32 + 1)
  refine ⟨_, u, le_rfl, hrun, fun hu => ?_⟩
  have hfits := run_busy_fits hlegal hin hrun hu
  omega

end Sys2Proof.Machine
end

section
/-! SUPPORT. Exceptions: a fault writes STATE and FCODE only (R262, R263), and outside a run the sequencer rests (R265,
R302). -/

namespace Sys2Proof.Machine

@[simp] theorem State.faulted_byte (s : State) (code : FCode) (address : Nat) :
    (s.faulted code).byte address = s.byte address := rfl

/-- Settles O12: of the two steps that end a run, END leaves DONE, so a step to FAULT took a fault; its code is nonzero
because STATE changed. -/
theorem aFaultWritesNothing : Obligations.AFaultWritesNothing := by
  intro s t hin hb hstep hfault
  have hseq : sequencerStep s = .next t := (step_of_inbox_nil hin).symm.trans hstep
  have hcode : t.fcode ≠ .none := by
    obtain ⟨-, ⟨hdone, -⟩ | ⟨-, hcode⟩⟩ := sequencerStep_changes_run hseq (by simp [hfault, hb])
    · simp [hfault] at hdone
    · exact hcode
  obtain rfl | ⟨code, rfl⟩ := ended_of_not_busy hb hseq (by simp [hfault])
  · cases hfault
  · exact ⟨rfl, hcode, State.faulted_byte s code⟩

/-- Settles O15: with no host move due the step is the sequencer's, which acts only while BUSY. -/
theorem theSequencerRestsUnlessBusy : Obligations.TheSequencerRestsUnlessBusy := fun _ hin hrest =>
  (step_of_inbox_nil hin).trans (sequencerStep_idle hrest)

end Sys2Proof.Machine
end

section
/-! SUPPORT. Reset during a run (R300, R301): the memory may be torn in the destination of the command in progress, and
nowhere else. -/

namespace Sys2Proof.Machine

/-- After a list of writes an address reads as before, or as one of the cells that name it. -/
theorem Memory.look_putAll_cases (m : Memory) (cells : List Host.Cell) (x : Nat) :
    Memory.look (Memory.putAll m cells) x = Memory.look m x ∨
    ∃ b, (x, b) ∈ cells ∧ Memory.look (Memory.putAll m cells) x = some b := by
  induction cells generalizing m with
  | nil => exact .inl rfl
  | cons p cells ih =>
    rw [Memory.putAll_cons]
    obtain hlater | ⟨b, hb, hlook⟩ := ih (Memory.put m p.1 p.2)
    · by_cases hx : x = p.1
      · subst hx
        exact .inr ⟨p.2, List.mem_cons_self, hlater.trans (Memory.look_put_same m p.1 p.2)⟩
      · exact .inl (hlater.trans (Memory.look_put_other m p.2 hx))
    · exact .inr ⟨b, List.mem_cons_of_mem p hb, hlook⟩

/-- Whichever writes had happened when reset came, a byte reads as before or as the command in progress writes it. -/
theorem hostReset_byte_cases (s : State) (address : Nat) :
    s.hostReset.byte address = s.byte address ∨ (address, s.hostReset.byte address) ∈ s.commandWrites := by
  obtain hkept | ⟨b, hb, hlook⟩ := Memory.look_putAll_cases s.mem
    (s.commandWrites.filter fun p => Config.tornWrite s.draws p.1) address
  · exact .inl (Memory.byteOr_congr hkept s.cfg.powerUp)
  · have hbyte : s.hostReset.byte address = b := Memory.byteOr_of_look hlook s.cfg.powerUp
    rw [hbyte]
    exact .inr (List.mem_of_mem_filter hb)

/-- Settles O54: a byte that reset changed is a byte the command at CUR writes, and only a command that completes writes
any. -/
theorem resetTearsOnlyTheCommandInProgress : Obligations.ResetTearsOnlyTheCommandInProgress := by
  intro s t rest address hstep
  obtain rfl : State.hostReset { s with inbox := rest } = t := Host.Outcome.next.inj hstep
  obtain hkept | htorn := hostReset_byte_cases { s with inbox := rest } address
  · exact .inl hkept
  · obtain ⟨i, d, u, hb, hf, hdecode, hdest, hexec, hu, hcover, hvalue⟩ := commandWrites_mem htorn
    obtain ⟨-, -, m, rfl⟩ := completed_of_busy ((sequencerStep_instr hb hf hdecode).trans hexec) hu
    exact .inr ⟨i, d, _, hb, hdecode, hdest, hcover, hexec, rfl, hvalue⟩

end Sys2Proof.Machine
end
